-- ==== Sys2Proof/Word.lean ====
section
/-! DEFINITION. The machine's words (spec 00_scope.md section 5, 10_state.md rules R10, R13, R15). -/

namespace Sys2Proof

/-- A byte: what a memory cell, SP and FL hold, 0 to 255, unsigned (R10, R36). -/
abbrev Byte := BitVec 8

/-- The program counter's word: 9 bits, so that the 0 to 259 it can reach never wrap (R15, R16; log entry 4). -/
abbrev PcWord := BitVec 9

end Sys2Proof
end

