-- ==== Sys2Proof/Machine/Flags.lean ====
section
/-! DEFINITION. The flags register's values, the comparison that sets them and the tests the conditional jumps make
(spec 10_state.md rules R17, R18; 41_alu.md rule R103; 43_stack_control.md rule R130). -/

namespace Sys2Proof.Machine

/-- `FL_E`, Equal (R17; log entry 2). -/
def flE : Byte := 0x01
/-- `FL_G`, Greater-than (R17; log entry 2). -/
def flG : Byte := 0x02
/-- `FL_L`, Less-than (R17; log entry 2). -/
def flL : Byte := 0x04

/-- The whole of FL after a comparison of two unsigned bytes (R103; log entry 10). -/
def compareFlags (a b : Byte) : Byte :=
  if a.toNat = b.toNat then flE else if a.toNat < b.toNat then flL else flG

/-- The test of a flag: `(FL & f) != 0` (R130; log entry 12). -/
def flagSet (fl f : Byte) : Bool := fl &&& f != 0

end Sys2Proof.Machine
end

