-- ==== Sys2Proof/Syntax.lean ====
section
/-! DEFINITION. The instructions: one constructor per row of spec/opcode_table.json (30_encoding.md rules R54, R56).
A register operand is a whole byte naming a memory slot; nothing is masked (R12, R53; log entry 6). The 226 bytes
outside the table are no instructions (R57): the step handles them itself (R78). -/

namespace Sys2Proof

/-- An instruction with its operand bytes; the row order is that of rule R56. -/
inductive Instr where
  /-- NOP: does nothing (R76). -/
  | nop
  /-- HLT: stops the engine (R77). -/
  | hlt
  /-- RET: returns: pops PC (R123). -/
  | ret
  /-- IRET: partially implemented (R142). -/
  | iret
  /-- PRA: partially implemented, its operand's use is not recorded (R143). -/
  | pra (a : Byte)
  /-- PRN: outputs the byte in slot A (R113). -/
  | prn (ra : Byte)
  /-- CALL: calls the address in slot A (R122). -/
  | call (ra : Byte)
  /-- INT: partially implemented, its operand's use is not recorded (R141). -/
  | int (a : Byte)
  /-- POP: pops into slot A (R121). -/
  | pop (ra : Byte)
  /-- PUSH: pushes slot A (R120). -/
  | push (ra : Byte)
  /-- JMP: jumps to the address in slot A (R124). -/
  | jmp (ra : Byte)
  /-- JEQ: jumps if Equal (R125). -/
  | jeq (ra : Byte)
  /-- JNE: jumps if not Equal (R126). -/
  | jne (ra : Byte)
  /-- JLT: jumps if Less-than (R127). -/
  | jlt (ra : Byte)
  /-- JGT: jumps if Greater-than (R128). -/
  | jgt (ra : Byte)
  /-- NOT: complements slot A (R98). -/
  | not (ra : Byte)
  /-- INC: adds one to slot A (R96). -/
  | inc (ra : Byte)
  /-- DEC: subtracts one from slot A (R97). -/
  | dec (ra : Byte)
  /-- LD: loads slot A from the address in slot B (R111). -/
  | ld (ra rb : Byte)
  /-- LDI: loads slot A with the immediate (R110). -/
  | ldi (ra imm : Byte)
  /-- ST: stores slot B at the address in slot A (R112). -/
  | st (ra rb : Byte)
  /-- CMP: compares slots A and B (R103). -/
  | cmp (ra rb : Byte)
  /-- ADD: slot A plus slot B (R91). -/
  | add (ra rb : Byte)
  /-- SUB: slot A minus slot B (R92). -/
  | sub (ra rb : Byte)
  /-- MUL: slot A times slot B (R93). -/
  | mul (ra rb : Byte)
  /-- DIV: slot A divided by slot B (R94). -/
  | div (ra rb : Byte)
  /-- MOD: slot A modulo slot B (R95). -/
  | mod (ra rb : Byte)
  /-- OR: bitwise or (R100). -/
  | or (ra rb : Byte)
  /-- XOR: bitwise exclusive or (R101). -/
  | xor (ra rb : Byte)
  /-- AND: bitwise and (R99). -/
  | and (ra rb : Byte)
  deriving DecidableEq, Repr

end Sys2Proof
end

