-- ==== Sys2Proof/Decode.lean ====
section
/-! DEFINITION. Which instructions are read from which bytes, and which bytes write an instruction (spec
30_encoding.md rules R50 to R57). The decoder selects by the whole opcode byte (R51, R55) and rejects by name. -/

namespace Sys2Proof

/-- What an opcode byte of the table makes of the operand bytes that follow it: the formats of rule R50. -/
inductive Form where
  /-- OP0: the opcode byte alone. -/
  | op0 (i : Instr)
  /-- OP1: one operand byte. -/
  | op1 (mk : Byte → Instr)
  /-- OP2: two operand bytes. -/
  | op2 (mk : Byte → Byte → Instr)

/-- The opcode table of rule R56, by the decimal value of the whole opcode byte; `none` for the 226 unknown opcodes
of rule R57. -/
def formOf (op : Byte) : Option Form :=
  match op.toNat with
  | 0 => some (.op0 .nop)
  | 1 => some (.op0 .hlt)
  | 9 => some (.op0 .ret)
  | 11 => some (.op0 .iret)
  | 66 => some (.op1 .pra)
  | 67 => some (.op1 .prn)
  | 72 => some (.op1 .call)
  | 74 => some (.op1 .int)
  | 76 => some (.op1 .pop)
  | 77 => some (.op1 .push)
  | 80 => some (.op1 .jmp)
  | 81 => some (.op1 .jeq)
  | 82 => some (.op1 .jne)
  | 83 => some (.op1 .jlt)
  | 84 => some (.op1 .jgt)
  | 112 => some (.op1 .not)
  | 120 => some (.op1 .inc)
  | 121 => some (.op1 .dec)
  | 152 => some (.op2 .ld)
  | 153 => some (.op2 .ldi)
  | 154 => some (.op2 .st)
  | 160 => some (.op2 .cmp)
  | 168 => some (.op2 .add)
  | 169 => some (.op2 .sub)
  | 170 => some (.op2 .mul)
  | 171 => some (.op2 .div)
  | 172 => some (.op2 .mod)
  | 177 => some (.op2 .or)
  | 178 => some (.op2 .xor)
  | 179 => some (.op2 .and)
  | _ => none

/-- The partially implemented opcodes IRET, PRA and INT (R55, R140). -/
def isPartial (op : Byte) : Bool := op == 0x0B || op == 0x42 || op == 0x4A

/-- The three classes of rule R55. -/
inductive OpClass where
  | defined
  | partiallyImplemented
  | unknown
  deriving DecidableEq, Repr

/-- The class of an opcode byte: a total function of that byte alone (R55). -/
def opClass (op : Byte) : OpClass :=
  match formOf op with
  | none => .unknown
  | some _ => if isPartial op then .partiallyImplemented else .defined

/-- `len = 1 + IR[7:6]`, for every opcode byte, known or unknown (R52; log entry 15). -/
def instrLen (op : Byte) : Nat := 1 + op.toNat / 64

/-- Why the decoder reads no instruction from a list of bytes. -/
inductive Reject where
  /-- The list is empty: there is no opcode byte. -/
  | noOpcode
  /-- The opcode byte is one of the 226 outside the table (R57). -/
  | unknownOpcode (op : Byte)
  /-- The opcode takes an operand A and no byte follows it. -/
  | missingOperandA (op : Byte)
  /-- The opcode takes an operand B and only operand A follows it. -/
  | missingOperandB (op : Byte)
  deriving DecidableEq, Repr

/-- Reads the instruction at the head of a list of bytes and gives the bytes after it (R50, R55). -/
def decode : List Byte → Except Reject (Instr × List Byte)
  | [] => .error .noOpcode
  | op :: rest =>
    match formOf op with
    | none => .error (.unknownOpcode op)
    | some (.op0 i) => .ok (i, rest)
    | some (.op1 mk) =>
      match rest with
      | [] => .error (.missingOperandA op)
      | a :: rest' => .ok (mk a, rest')
    | some (.op2 mk) =>
      match rest with
      | [] => .error (.missingOperandA op)
      | [_] => .error (.missingOperandB op)
      | a :: b :: rest' => .ok (mk a b, rest')

/-! The encoder, written from the same table. -/

namespace Opcode

/-- NOP: 0. -/
def nop : Byte := 0x00
/-- HLT: 1. -/
def hlt : Byte := 0x01
/-- RET: 9. -/
def ret : Byte := 0x09
/-- IRET: 11. -/
def iret : Byte := 0x0B
/-- PRA: 66. -/
def pra : Byte := 0x42
/-- PRN: 67. -/
def prn : Byte := 0x43
/-- CALL: 72. -/
def call : Byte := 0x48
/-- INT: 74. -/
def int : Byte := 0x4A
/-- POP: 76. -/
def pop : Byte := 0x4C
/-- PUSH: 77. -/
def push : Byte := 0x4D
/-- JMP: 80. -/
def jmp : Byte := 0x50
/-- JEQ: 81. -/
def jeq : Byte := 0x51
/-- JNE: 82. -/
def jne : Byte := 0x52
/-- JLT: 83. -/
def jlt : Byte := 0x53
/-- JGT: 84. -/
def jgt : Byte := 0x54
/-- NOT: 112. -/
def not : Byte := 0x70
/-- INC: 120. -/
def inc : Byte := 0x78
/-- DEC: 121. -/
def dec : Byte := 0x79
/-- LD: 152. -/
def ld : Byte := 0x98
/-- LDI: 153. -/
def ldi : Byte := 0x99
/-- ST: 154. -/
def st : Byte := 0x9A
/-- CMP: 160. -/
def cmp : Byte := 0xA0
/-- ADD: 168. -/
def add : Byte := 0xA8
/-- SUB: 169. -/
def sub : Byte := 0xA9
/-- MUL: 170. -/
def mul : Byte := 0xAA
/-- DIV: 171. -/
def div : Byte := 0xAB
/-- MOD: 172. -/
def mod : Byte := 0xAC
/-- OR: 177. -/
def or : Byte := 0xB1
/-- XOR: 178. -/
def xor : Byte := 0xB2
/-- AND: 179. -/
def and : Byte := 0xB3

end Opcode

/-- The opcode byte of an instruction (R56). -/
def Instr.opcode : Instr → Byte
  | .nop => Opcode.nop
  | .hlt => Opcode.hlt
  | .ret => Opcode.ret
  | .iret => Opcode.iret
  | .pra _ => Opcode.pra
  | .prn _ => Opcode.prn
  | .call _ => Opcode.call
  | .int _ => Opcode.int
  | .pop _ => Opcode.pop
  | .push _ => Opcode.push
  | .jmp _ => Opcode.jmp
  | .jeq _ => Opcode.jeq
  | .jne _ => Opcode.jne
  | .jlt _ => Opcode.jlt
  | .jgt _ => Opcode.jgt
  | .not _ => Opcode.not
  | .inc _ => Opcode.inc
  | .dec _ => Opcode.dec
  | .ld _ _ => Opcode.ld
  | .ldi _ _ => Opcode.ldi
  | .st _ _ => Opcode.st
  | .cmp _ _ => Opcode.cmp
  | .add _ _ => Opcode.add
  | .sub _ _ => Opcode.sub
  | .mul _ _ => Opcode.mul
  | .div _ _ => Opcode.div
  | .mod _ _ => Opcode.mod
  | .or _ _ => Opcode.or
  | .xor _ _ => Opcode.xor
  | .and _ _ => Opcode.and

/-- The operand bytes of an instruction, operand A first (R50, R54). -/
def Instr.operands : Instr → List Byte
  | .nop => []
  | .hlt => []
  | .ret => []
  | .iret => []
  | .pra a => [a]
  | .prn ra => [ra]
  | .call ra => [ra]
  | .int a => [a]
  | .pop ra => [ra]
  | .push ra => [ra]
  | .jmp ra => [ra]
  | .jeq ra => [ra]
  | .jne ra => [ra]
  | .jlt ra => [ra]
  | .jgt ra => [ra]
  | .not ra => [ra]
  | .inc ra => [ra]
  | .dec ra => [ra]
  | .ld ra rb => [ra, rb]
  | .ldi ra imm => [ra, imm]
  | .st ra rb => [ra, rb]
  | .cmp ra rb => [ra, rb]
  | .add ra rb => [ra, rb]
  | .sub ra rb => [ra, rb]
  | .mul ra rb => [ra, rb]
  | .div ra rb => [ra, rb]
  | .mod ra rb => [ra, rb]
  | .or ra rb => [ra, rb]
  | .xor ra rb => [ra, rb]
  | .and ra rb => [ra, rb]

/-- The bytes of an instruction at ascending addresses (R34, R50). -/
def encode (i : Instr) : List Byte := i.opcode :: i.operands

/-- The first three bytes of a word whose bit 0 is the least significant bit of the first byte; three is the longest
instruction (R50). -/
def wordBytes (w : Nat) : List Byte :=
  [BitVec.ofNat 8 w, BitVec.ofNat 8 (w / 256), BitVec.ofNat 8 (w / 65536)]

/-- The instruction the decoder reads from a word numbered as spec/opcode_table.json numbers its rows. -/
def decodeTableWord (nbits w : Nat) : Option Instr :=
  match decode (wordBytes (w % 2 ^ nbits)) with
  | .ok (i, _) => some i
  | .error _ => none

end Sys2Proof
end

