-- ==== Sys2Proof/Config.lean ====
section
/-! DEFINITION. The machine's fixed parameters that State and its reset rest on (spec 00_scope.md rule R5).
The parameters that a test could show wrong (flag values, truncation, the length formula, what an unlisted
byte reads as) stand where a repair may mend them: Machine/Flags.lean, Machine/Ops.lean and Decode.lean.
The spec leaves no value free at run time (93_implementation_defined.md, end of section 1: "Nothing in this
machine is `any value`"), so no free value stands here. -/

namespace Sys2Proof.Config

/-- `MEM_SIZE`: addresses 0 to 255 (R5, R30). -/
def memSize : Nat := 256

/-- `SP_RESET` (R5, R24). -/
def spReset : Byte := 0xF4

/-- `PC_RESET` (R5, R24; log entry 3). -/
def pcReset : PcWord := 0

/-- `FL_RESET`: no flag set (R5, R24; log entry 2). -/
def flReset : Byte := 0x00

end Sys2Proof.Config
end

