-- ==== Sys2Proof/Machine/State.lean ====
section
/-! DEFINITION. The machine's state (spec 10_state.md rule R10), the reasons a step stops, and the state after reset
(R24). The general registers R0 to R7 have no field of their own: they are the bytes of memory at addresses 0 to 7
(R11, R12, R23). The latches IR, opA, opB and pc_set live inside one step and are no state (R22). -/

namespace Sys2Proof.Machine

/-- Memory as a list of (address, byte) in canonical form (`Memory.wf` in Machine/Ops.lean); an address that is not
listed reads as `Memory.unlisted`. -/
abbrev Memory := List Host.Cell

/-- Which access an address was presented for (R31, R151). -/
inductive AccessKind where
  | opcodeFetch
  | operandA
  | operandB
  | dataRead
  | dataWrite
  deriving DecidableEq, Repr

/-- The three fatal conditions of the machine with the information each records (R151; log entry 17). -/
inductive Cause where
  /-- Code 1: DIV or MOD with a divisor byte of 0, with the address of the instruction (R154). -/
  | divideByZero (pc : PcWord)
  /-- Code 2: an address outside 0 to 255, with the access it was for (R155). -/
  | memRange (addr : Nat) (kind : AccessKind)
  /-- Code 3: SP would leave 0 to 255, with the value it would have taken (R156). -/
  | stackRange (attempted : Int)
  deriving DecidableEq, Repr

/-- The engine's run latch (R19). -/
inductive Status where
  /-- The engine accepts step requests. -/
  | running
  /-- A HLT has executed. -/
  | halted
  /-- A fatal condition stopped the engine. -/
  | faulted (cause : Cause)
  /-- The model met INT, IRET or PRA. -/
  | refused (opcode : Byte)
  deriving DecidableEq, Repr

/-- An event of the diagnostic stream (R21). -/
inductive DiagEvent where
  | unknownOpcode (pc : PcWord) (opcode : Byte)
  deriving DecidableEq, Repr

/-- The whole state of the machine (R10). -/
structure State where
  /-- The 256 bytes, the general registers' slots among them. -/
  mem : Memory
  /-- The stack pointer, an engine register apart from memory (R13). -/
  sp : Byte
  /-- The program counter (R15). -/
  pc : PcWord
  /-- The flags register (R17). -/
  fl : Byte
  /-- The run latch (R19). -/
  status : Status
  /-- The bytes sent to the number-output port, oldest first (R20). -/
  out : List Byte
  /-- The diagnostic events, oldest first (R21). -/
  diag : List DiagEvent
  deriving DecidableEq, Repr

/-- Why there is no next state although no instruction was refused: the step was asked for when the engine has none
(R70, R19). The machine's own fatal conditions are no reason here: they are next states whose status is `faulted`
(log entry 16). -/
inductive Fault where
  /-- Raised by `step` when the engine has halted; safe: the model stops where a host that breaks its duty would see the
  reference go on (93_implementation_defined.md U12). -/
  | noStepHalted
  /-- Raised by `step` after a fatal condition; safe. -/
  | noStepFaulted (cause : Cause)
  /-- Raised by `step` after a refusal; safe. -/
  | noStepRefused (opcode : Byte)
  deriving DecidableEq, Repr

/-- Why the model gives an instruction no meaning. -/
inductive Refusal where
  /-- Raised by `exec` alone, for an instruction that has no meaning yet; safe. -/
  | notModelled (mnemonic : String)
  /-- Raised by INT, IRET and PRA, whose bodies the spec says are not known, with the state the spec leaves: its status
  `refused`, nothing else changed (R140; log entry 14); safe. -/
  | partialOpcode (opcode : Byte) (stopped : State)
  deriving DecidableEq, Repr

/-- The machine right after power-on (R24, R180), with no memory byte listed: the image a host loads is put there by
`loadProgram` (R184; log entry 1). -/
def State.reset : State where
  mem := []
  sp := Config.spReset
  pc := Config.pcReset
  fl := Config.flReset
  status := .running
  out := []
  diag := []

end Sys2Proof.Machine
end

