-- ==== Sys2Proof/Machine/Ops.lean ====
section
/-! DEFINITION. The named operations over memory and the engine's registers (spec 20_memory.md rules R30 to R33,
40_cycle.md rules R71 to R75, 43_stack_control.md rule R129, 60_exceptions.md rule R150, 70_reset_and_hazards.md
rules R180, R184). -/

namespace Sys2Proof.Machine

/-! Memory. -/

/-- What an address that is not listed reads as (log entry 1: DESIGN CHOICE, the spec leaves the image to the host). -/
def Memory.unlisted : Byte := 0x00

/-- The byte at an address. -/
def Memory.get : Memory → Nat → Byte
  | [], _ => Memory.unlisted
  | (k, v) :: m, a => if k = a then v else Memory.get m a

/-- Puts a byte at an address and keeps the canonical form. -/
def Memory.set : Memory → Nat → Byte → Memory
  | [], a, v => if v = Memory.unlisted then [] else [(a, v)]
  | (k, w) :: m, a, v =>
    if k < a then (k, w) :: Memory.set m a v
    else if k = a then (if v = Memory.unlisted then m else (a, v) :: m)
    else if v = Memory.unlisted then (k, w) :: m else (a, v) :: (k, w) :: m

/-- The addresses from `lo` on rise strictly, lie in the address space, and no listed byte is the unlisted one. -/
def Memory.wfFrom : Nat → Memory → Bool
  | _, [] => true
  | lo, (k, v) :: m =>
    decide (lo ≤ k) && decide (k < Config.memSize) && decide (v ≠ Memory.unlisted) && Memory.wfFrom (k + 1) m

/-- The canonical form: equal memories are equal lists. -/
def Memory.wf (m : Memory) : Bool := Memory.wfFrom 0 m

/-! One update per field of the state. -/

/-- Replaces memory. -/
def State.setMem (m : Memory) (s : State) : State := { s with mem := m }
/-- `SP <- v`. -/
def State.setSp (v : Byte) (s : State) : State := { s with sp := v }
/-- Loads PC. -/
def State.setPc (v : PcWord) (s : State) : State := { s with pc := v }
/-- `FL <- v`. -/
def State.setFl (v : Byte) (s : State) : State := { s with fl := v }
/-- Sets the run latch. -/
def State.setStatus (v : Status) (s : State) : State := { s with status := v }
/-- `Out <- Out ++ [v]` (R20). -/
def State.emit (v : Byte) (s : State) : State := { s with out := s.out ++ [v] }
/-- `Diag <- Diag ++ [e]` (R21). -/
def State.log (e : DiagEvent) (s : State) : State := { s with diag := s.diag ++ [e] }

/-- `Mem[a]`. -/
def State.byte (s : State) (a : Nat) : Byte := s.mem.get a

/-! The two memory primitives. -/

/-- `trunc8(v) = v mod 256`, the low byte of any integer (R32, R90; log entry 8). -/
def trunc8 (v : Int) : Byte := BitVec.ofInt 8 v

/-- `MemRead(addr, 1)` (R31). -/
def memRead (s : State) (addr : Nat) (kind : AccessKind) : Except Cause Byte :=
  if addr < Config.memSize then .ok (s.byte addr) else .error (.memRange addr kind)

/-- `MemWrite(addr, 1, v)`: the truncation is part of the write (R32). -/
def memWrite (s : State) (addr : Nat) (v : Int) : Except Cause State :=
  if addr < Config.memSize then .ok (s.setMem (s.mem.set addr (trunc8 v))) else .error (.memRange addr .dataWrite)

/-! Taking a fatal condition, and the end of an instruction. -/

/-- `raise F(info)`: the status latch takes the cause and nothing else changes; PC stays at the instruction (R150, R152;
log entry 16). The machine has no handler and no return from one (R153, R159, R161). -/
def raise (c : Cause) (s : State) : State := s.setStatus (.faulted c)

/-- Ends an instruction begun in `s`: its writes stand if it ran to its end, and all of them are cancelled if it raised
a fatal condition (R73, R152). -/
def complete (s : State) (body : Except Cause State) : Host.Outcome State Fault Refusal :=
  match body with
  | .ok t => .next t
  | .error c => .next (raise c s)

/-- The automatic advance `PC <- PC + len`, its length from the opcode byte as fetched (R52, R75; log entry 7). -/
def advance (op : Byte) (s : State) : State := s.setPc (s.pc + BitVec.ofNat 9 (instrLen op))

/-- An explicit set `PC <- target`: no advance follows, whatever the target (R74). -/
def jumpTo (target : Byte) (s : State) : State := s.setPc (target.setWidth 9)

/-! The stack (R129). -/

/-- Decrements SP, then writes at the new SP; fatal when SP is 0x00 (R14, R120, R122; log entry 5). -/
def push (v : Int) (s : State) : Except Cause State :=
  if s.sp = 0x00 then .error (.stackRange (-1))
  else memWrite (s.setSp (s.sp - 1)) (s.sp - 1).toNat v

/-- Reads at SP, then increments it; fatal when SP is 0xFF (R14, R121, R123; log entry 5). -/
def pop (s : State) : Except Cause (Byte × State) := do
  let v ← memRead s s.sp.toNat .dataRead
  if s.sp = 0xFF then .error (.stackRange 256) else .ok (v, s.setSp (s.sp + 1))

/-! Fetch (R71). -/

/-- What a fetch brings: an instruction with its operand bytes, or an opcode byte outside the table. -/
inductive Fetched where
  | instr (i : Instr)
  | unknown (op : Byte)
  deriving DecidableEq, Repr

/-- Operand A of the instruction at PC: read, and fatal beyond the top of memory, when the instruction uses it (R71).
A partial opcode is refused before any operand fetch (R79), so its operand byte is taken where it exists and 0x00
stands for it where it does not (log entry 13). -/
def fetchOperandA (s : State) (op : Byte) : Except Cause Byte :=
  if isPartial op then .ok (s.byte (s.pc.toNat + 1)) else memRead s (s.pc.toNat + 1) .operandA

/-- Fetches the instruction at PC: the opcode byte, then operand A, then operand B, each only if it is used (R71). -/
def fetch (s : State) : Except Cause Fetched := do
  let ir ← memRead s s.pc.toNat .opcodeFetch
  match formOf ir with
  | none => .ok (.unknown ir)
  | some (.op0 i) => .ok (.instr i)
  | some (.op1 mk) => do
    let a ← fetchOperandA s ir
    .ok (.instr (mk a))
  | some (.op2 mk) => do
    let a ← memRead s (s.pc.toNat + 1) .operandA
    let b ← memRead s (s.pc.toNat + 2) .operandB
    .ok (.instr (mk a b))

/-- The bytes of memory from PC on, at most the three of the longest instruction, none beyond the top of memory. -/
def window (s : State) : List Byte :=
  (([0, 1, 2].map (s.pc.toNat + ·)).filter (· < Config.memSize)).map s.byte

/-! The host's moves and what it receives (R27, R180, R184, R187). -/

/-- Power-on reset of a machine in any state: it writes no memory byte and discards the rest (R26, R180). -/
def powerOn (s : State) : State := State.reset.setMem s.mem

/-- Puts bytes at ascending addresses from `a` on. -/
def Memory.setAll (m : Memory) (a : Nat) : List Byte → Memory
  | [] => m
  | v :: vs => Memory.setAll (m.set a v) (a + 1) vs

/-- Why a load fails. It is the store's range fault, outside the engine: no fatal condition of R151, no state of it
(R184). -/
inductive LoadError where
  /-- The first address beyond the store that the program would have been written to (log entry 19). -/
  | storeRange (addr : Nat)
  deriving DecidableEq, Repr

/-- `loadProgram(bytes)`: byte k of the program goes to address k; a program longer than the 256 bytes of the store
cannot be loaded, and then there is no machine to step (R184). -/
def loadProgram (bytes : List Byte) (s : State) : Except LoadError State :=
  if bytes.length ≤ Config.memSize then .ok (s.setMem (s.mem.setAll 0 bytes)) else .error (.storeRange Config.memSize)

/-- `halt_req`, held while the engine is halted (R27, R77). -/
def haltReq (s : State) : Bool := s.status == .halted

/-- The code of a fatal condition (R151). -/
def Cause.code : Cause → Nat
  | .divideByZero _ => 1
  | .memRange _ _ => 2
  | .stackRange _ => 3

/-- The `fault` output: the code and the information, while the engine is faulted (R27, R150). -/
def faultOut (s : State) : Option (Nat × Cause) :=
  match s.status with
  | .faulted c => some (c.code, c)
  | .running | .halted | .refused _ => none

end Sys2Proof.Machine
end

