-- ==== Sys2Proof/Machine/Operands.lean ====
section
/-! DEFINITION. The operand forms: a register operand, an immediate, and the address held in a register slot (spec
30_encoding.md rules R53, R54; 10_state.md rules R11, R12). -/

namespace Sys2Proof.Machine

/-- The byte in the slot a register operand byte names, for every byte value (R11, R12; log entry 6). -/
def State.slot (s : State) (i : Byte) : Byte := s.byte i.toNat

/-- Register-operand read `x[i] = MemRead(i, 1)` (R11). -/
def regRead (s : State) (i : Byte) : Except Cause Byte := memRead s i.toNat .dataRead

/-- Register-operand write `x[i] <- v`, that is `MemWrite(i, 1, v)` (R11). -/
def regWrite (s : State) (i : Byte) (v : Int) : Except Cause State := memWrite s i.toNat v

/-- An immediate operand byte is the value itself: no extension, no scaling (R53). -/
def immediate (b : Byte) : Int := b.toNat

/-- The data address held in a register slot: the byte itself, no offset (R53, R111, R112). -/
def dataAddr (b : Byte) : Nat := b.toNat

end Sys2Proof.Machine
end

