-- ==== Sys2Proof/Machine/Alu.lean ====
section
/-! DEFINITION. The ALU instructions (spec 41_alu.md rules R90 to R104). The ALU gives a plain integer; the write
truncates it (R90). Both slots are read before anything is written (R104). -/

namespace Sys2Proof.Machine

/-! What the ALU computes: exact integers of unsigned bytes (R90, R102). -/

/-- R91. -/
def aluAdd (a b : Byte) : Int := (a.toNat : Int) + b.toNat
/-- R92 (log entry 9). -/
def aluSub (a b : Byte) : Int := (a.toNat : Int) - b.toNat
/-- R93. -/
def aluMul (a b : Byte) : Int := (a.toNat : Int) * b.toNat
/-- `floor(a / b)` (R94; log entry 9). -/
def aluDiv (a b : Byte) : Int := ((a.toNat / b.toNat : Nat) : Int)
/-- `a - b * floor(a / b)` (R95; log entry 9). -/
def aluMod (a b : Byte) : Int := ((a.toNat % b.toNat : Nat) : Int)
/-- R96 (log entry 11). -/
def aluInc (a : Byte) : Int := (a.toNat : Int) + 1
/-- R97 (log entry 11). -/
def aluDec (a : Byte) : Int := (a.toNat : Int) - 1
/-- `a ^ 0xFF` (R98; log entry 11). -/
def aluNot (a : Byte) : Int := ((a ^^^ 0xFF#8).toNat : Int)
/-- R99 (log entry 11). -/
def aluAnd (a b : Byte) : Int := ((a &&& b).toNat : Int)
/-- R100 (log entry 11). -/
def aluOr (a b : Byte) : Int := ((a ||| b).toNat : Int)
/-- R101 (log entry 11). -/
def aluXor (a b : Byte) : Int := ((a ^^^ b).toNat : Int)

/-! The three shapes of a storing ALU instruction. -/

/-- `x[opA] <- f(x[opA], x[opB])`, then the advance. -/
def aluBinary (op : Byte) (f : Byte → Byte → Int) (ra rb : Byte) (s : State) : Host.Outcome State Fault Refusal :=
  complete s do
    let a ← regRead s ra
    let b ← regRead s rb
    let t ← regWrite s ra (f a b)
    pure (advance op t)

/-- As `aluBinary`, but fatal when the divisor byte is 0, before anything is written (R154). -/
def aluDivide (op : Byte) (f : Byte → Byte → Int) (ra rb : Byte) (s : State) : Host.Outcome State Fault Refusal :=
  complete s do
    let a ← regRead s ra
    let b ← regRead s rb
    if b = 0 then .error (.divideByZero s.pc) else do
      let t ← regWrite s ra (f a b)
      pure (advance op t)

/-- `x[opA] <- f(x[opA])`, then the advance. -/
def aluUnary (op : Byte) (f : Byte → Int) (ra : Byte) (s : State) : Host.Outcome State Fault Refusal :=
  complete s do
    let a ← regRead s ra
    let t ← regWrite s ra (f a)
    pure (advance op t)

/-! The instructions. -/

/-- ADD (R91). -/
def execAdd (ra rb : Byte) (s : State) : Host.Outcome State Fault Refusal := aluBinary Opcode.add aluAdd ra rb s
/-- SUB (R92). -/
def execSub (ra rb : Byte) (s : State) : Host.Outcome State Fault Refusal := aluBinary Opcode.sub aluSub ra rb s
/-- MUL (R93). -/
def execMul (ra rb : Byte) (s : State) : Host.Outcome State Fault Refusal := aluBinary Opcode.mul aluMul ra rb s
/-- DIV (R94). -/
def execDiv (ra rb : Byte) (s : State) : Host.Outcome State Fault Refusal := aluDivide Opcode.div aluDiv ra rb s
/-- MOD (R95). -/
def execMod (ra rb : Byte) (s : State) : Host.Outcome State Fault Refusal := aluDivide Opcode.mod aluMod ra rb s
/-- INC (R96). -/
def execInc (ra : Byte) (s : State) : Host.Outcome State Fault Refusal := aluUnary Opcode.inc aluInc ra s
/-- DEC (R97). -/
def execDec (ra : Byte) (s : State) : Host.Outcome State Fault Refusal := aluUnary Opcode.dec aluDec ra s
/-- NOT (R98). -/
def execNot (ra : Byte) (s : State) : Host.Outcome State Fault Refusal := aluUnary Opcode.not aluNot ra s
/-- AND (R99). -/
def execAnd (ra rb : Byte) (s : State) : Host.Outcome State Fault Refusal := aluBinary Opcode.and aluAnd ra rb s
/-- OR (R100). -/
def execOr (ra rb : Byte) (s : State) : Host.Outcome State Fault Refusal := aluBinary Opcode.or aluOr ra rb s
/-- XOR (R101). -/
def execXor (ra rb : Byte) (s : State) : Host.Outcome State Fault Refusal := aluBinary Opcode.xor aluXor ra rb s

/-- CMP: replaces the whole of FL and writes no memory byte (R103). -/
def execCmp (ra rb : Byte) (s : State) : Host.Outcome State Fault Refusal :=
  complete s do
    let a ← regRead s ra
    let b ← regRead s rb
    pure (advance Opcode.cmp (s.setFl (compareFlags a b)))

end Sys2Proof.Machine
end

