-- ==== Sys2Proof/Machine/Cycle.lean ====
section
/-! DEFINITION. NOP, HLT and the unknown opcodes (spec 40_cycle.md rules R76 to R78), and the three partially implemented
opcodes (44_partial_ops.md rules R140 to R144). -/

namespace Sys2Proof.Machine

/-- NOP: only the advance (R76). -/
def execNop (s : State) : Host.Outcome State Fault Refusal := .next (advance Opcode.nop s)

/-- HLT: the run latch, and the advance (R77; log entry 7). -/
def execHlt (s : State) : Host.Outcome State Fault Refusal := .next (advance Opcode.hlt (s.setStatus .halted))

/-- An opcode byte outside the table: one diagnostic event and the advance by `1 + IR[7:6]` (R78; log entry 15). -/
def execUnknown (op : Byte) (s : State) : Host.Outcome State Fault Refusal :=
  .next (advance op (s.log (.unknownOpcode s.pc op)))

/-- The stop at a partial opcode: `status <- Refused(IR)`, no other change, and the model says no more (R140; log
entry 14). -/
def refusePartial (op : Byte) (s : State) : Host.Outcome State Fault Refusal :=
  .refused (.partialOpcode op (s.setStatus (.refused op)))

/-- INT: `status <- Refused(74)` (R141). Its operand's use is not recorded. -/
def execInt (_a : Byte) (s : State) : Host.Outcome State Fault Refusal := refusePartial Opcode.int s
/-- IRET: `status <- Refused(11)` (R142). -/
def execIret (s : State) : Host.Outcome State Fault Refusal := refusePartial Opcode.iret s
/-- PRA: `status <- Refused(66)` (R143). Its operand's use is not recorded. -/
def execPra (_a : Byte) (s : State) : Host.Outcome State Fault Refusal := refusePartial Opcode.pra s

end Sys2Proof.Machine
end

