-- ==== Sys2Proof/Machine/Jump.lean ====
section
/-! DEFINITION. The jumps (spec 43_stack_control.md rules R124 to R128). -/

namespace Sys2Proof.Machine

/-- Takes the jump to the address in slot A when the condition holds, and advances otherwise (R74). -/
def jumpIf (op : Byte) (cond : Bool) (ra : Byte) (s : State) : Host.Outcome State Fault Refusal :=
  if cond then complete s do
    let target ← regRead s ra
    pure (jumpTo target s)
  else .next (advance op s)

/-- JMP (R124). -/
def execJmp (ra : Byte) (s : State) : Host.Outcome State Fault Refusal := jumpIf Opcode.jmp true ra s
/-- JEQ: `(FL & FL_E) != 0` (R125). -/
def execJeq (ra : Byte) (s : State) : Host.Outcome State Fault Refusal := jumpIf Opcode.jeq (flagSet s.fl flE) ra s
/-- JNE: `(FL & FL_E) = 0` (R126). -/
def execJne (ra : Byte) (s : State) : Host.Outcome State Fault Refusal := jumpIf Opcode.jne (!flagSet s.fl flE) ra s
/-- JLT: `(FL & FL_L) != 0` (R127). -/
def execJlt (ra : Byte) (s : State) : Host.Outcome State Fault Refusal := jumpIf Opcode.jlt (flagSet s.fl flL) ra s
/-- JGT: `(FL & FL_G) != 0` (R128). -/
def execJgt (ra : Byte) (s : State) : Host.Outcome State Fault Refusal := jumpIf Opcode.jgt (flagSet s.fl flG) ra s

end Sys2Proof.Machine
end

