-- ==== Sys2Proof/Machine/MoveIo.lean ====
section
/-! DEFINITION. Data movement and number output (spec 42_move_io.md rules R110 to R113). -/

namespace Sys2Proof.Machine

/-- LDI (R110). -/
def execLdi (ra imm : Byte) (s : State) : Host.Outcome State Fault Refusal :=
  complete s do
    let t ← regWrite s ra (immediate imm)
    pure (advance Opcode.ldi t)

/-- LD: `Mem[opA] <- Mem[Mem[opB]]` (R111; log entry 11). -/
def execLd (ra rb : Byte) (s : State) : Host.Outcome State Fault Refusal :=
  complete s do
    let p ← regRead s rb
    let v ← memRead s (dataAddr p) .dataRead
    let t ← regWrite s ra v.toNat
    pure (advance Opcode.ld t)

/-- ST: `Mem[Mem[opA]] <- Mem[opB]`, both reads before the write (R112; log entry 11). -/
def execSt (ra rb : Byte) (s : State) : Host.Outcome State Fault Refusal :=
  complete s do
    let p ← regRead s ra
    let v ← regRead s rb
    let t ← memWrite s (dataAddr p) v.toNat
    pure (advance Opcode.st t)

/-- PRN: one byte on the number-output port (R113). -/
def execPrn (ra : Byte) (s : State) : Host.Outcome State Fault Refusal :=
  complete s do
    let v ← regRead s ra
    pure (advance Opcode.prn (s.emit v))

end Sys2Proof.Machine
end

