-- ==== Sys2Proof/Machine/Stack.lean ====
section
/-! DEFINITION. The stack instructions, call and return (spec 43_stack_control.md rules R120 to R123). -/

namespace Sys2Proof.Machine

/-- PUSH (R120). -/
def execPush (ra : Byte) (s : State) : Host.Outcome State Fault Refusal :=
  complete s do
    let v ← regRead s ra
    let t ← push v.toNat s
    pure (advance Opcode.push t)

/-- POP (R121). -/
def execPop (ra : Byte) (s : State) : Host.Outcome State Fault Refusal :=
  complete s do
    let (v, t) ← pop s
    let u ← regWrite t ra v.toNat
    pure (advance Opcode.pop u)

/-- CALL: pushes PC + 2, then reads the target slot, then sets PC (R122; log entry 12). -/
def execCall (ra : Byte) (s : State) : Host.Outcome State Fault Refusal :=
  complete s do
    let t ← push ((s.pc.toNat : Int) + 2) s
    let target ← regRead t ra
    pure (jumpTo target t)

/-- RET (R123). -/
def execRet (s : State) : Host.Outcome State Fault Refusal :=
  complete s do
    let (v, t) ← pop s
    pure (jumpTo v t)

end Sys2Proof.Machine
end

