-- ==== Sys2Proof/Machine/Step.lean ====
section
/-! DEFINITION. One step request: one fetch-decode-execute cycle (spec 40_cycle.md rules R70 to R79). -/

namespace Sys2Proof.Machine

/-- The step of rule R79: there is one only while the engine runs (R70). -/
def step (s : State) : Host.Outcome State Fault Refusal :=
  match s.status with
  | .running =>
    match fetch s with
    | .error c => .next (raise c s)
    | .ok (.instr i) => exec i s
    | .ok (.unknown op) => execUnknown op s
  | .halted => .fault .noStepHalted
  | .faulted c => .fault (.noStepFaulted c)
  | .refused op => .fault (.noStepRefused op)

/-- Stores the bytes of a table word at PC and lets the engine run, so that the next step fetches and runs it: the host's
load of one instruction (R182, R184; log entry 19). A byte that would lie beyond address 255 has no place and is not
stored. -/
def State.withFetchWord (s : State) (nbits w : Nat) : State :=
  (s.setMem (s.mem.setAll s.pc.toNat
    ((wordBytes (w % 2 ^ nbits)).take (Config.memSize - s.pc.toNat)))).setStatus .running

end Sys2Proof.Machine
end

