-- ==== Sys2Proof/Laws/Memory.lean ====
section
/-! SUPPORT. The laws of memory: a read after a write, the canonical form and that every memory operation keeps it,
and that in this form equal contents are equal data. -/

namespace Sys2Proof.Machine

/-- Below the first address a listed form may start with, every read is of the unlisted byte. -/
theorem Memory.get_of_wfFrom_lt {m : Memory} {lo a : Nat} (h : Memory.wfFrom lo m = true) (ha : a < lo) :
    Memory.get m a = Memory.unlisted := by
  induction m generalizing lo with
  | nil => rfl
  | cons c m ih =>
    obtain ⟨k, v⟩ := c
    simp only [Memory.wfFrom, Bool.and_eq_true, decide_eq_true_eq] at h
    simp only [Memory.get]
    rw [if_neg (by omega)]
    exact ih h.2 (by omega)

/-- The canonical form may be read as starting lower. -/
theorem Memory.wfFrom_mono {m : Memory} {lo lo' : Nat} (h : Memory.wfFrom lo m = true) (hl : lo' ≤ lo) :
    Memory.wfFrom lo' m = true := by
  cases m with
  | nil => rfl
  | cons c m =>
    obtain ⟨k, v⟩ := c
    simp only [Memory.wfFrom, Bool.and_eq_true, decide_eq_true_eq] at h ⊢
    exact ⟨⟨⟨by omega, h.1.1.2⟩, h.1.2⟩, h.2⟩

/-- A write at or above the start of a canonical form, in the address space, keeps it. -/
theorem Memory.wfFrom_set {m : Memory} {lo a : Nat} {v : Byte} (h : Memory.wfFrom lo m = true) (hl : lo ≤ a)
    (ha : a < Config.memSize) : Memory.wfFrom lo (m.set a v) = true := by
  induction m generalizing lo with
  | nil =>
    simp only [Memory.set]
    split
    · rfl
    · next hv => simp [Memory.wfFrom, hl, ha, hv]
  | cons c m ih =>
    obtain ⟨k, w⟩ := c
    have h0 := h
    simp only [Memory.wfFrom, Bool.and_eq_true, decide_eq_true_eq] at h
    obtain ⟨⟨⟨h1, h2⟩, h3⟩, h4⟩ := h
    simp only [Memory.set]
    split
    · next hk => simp [Memory.wfFrom, h1, h2, h3, ih h4 (by omega : k + 1 ≤ a)]
    · next hk =>
      split
      · next he =>
        subst he
        split
        · exact Memory.wfFrom_mono h4 (by omega)
        · next hv => simp [Memory.wfFrom, hl, ha, hv, h4]
      · next he =>
        split
        · exact h0
        · next hv =>
          have : a + 1 ≤ k := by omega
          simp [Memory.wfFrom, hl, ha, hv, h2, h3, h4, this]

/-- A write keeps the canonical form. -/
theorem Memory.wf_set {m : Memory} {a : Nat} (v : Byte) (h : m.wf = true) (ha : a < Config.memSize) :
    (m.set a v).wf = true :=
  Memory.wfFrom_set h (Nat.zero_le a) ha

/-- A write of a run of bytes that ends in the address space keeps the canonical form. -/
theorem Memory.wf_setAll {m : Memory} {a : Nat} {vs : List Byte} (h : m.wf = true)
    (ha : a + vs.length ≤ Config.memSize) : (m.setAll a vs).wf = true := by
  induction vs generalizing m a with
  | nil => exact h
  | cons v vs ih =>
    simp only [List.length_cons] at ha
    exact ih (Memory.wf_set v h (by omega)) (by omega)

/-- Memory with nothing listed is in canonical form. -/
@[simp] theorem Memory.wf_nil : Memory.wf [] = true := rfl

theorem Memory.get_set_same_from {m : Memory} {lo : Nat} (h : Memory.wfFrom lo m = true) (a : Nat) (v : Byte) :
    (m.set a v).get a = v := by
  induction m generalizing lo with
  | nil =>
    simp only [Memory.set]
    split
    · next hv => simp [Memory.get, hv]
    · simp [Memory.get]
  | cons c m ih =>
    obtain ⟨k, w⟩ := c
    simp only [Memory.wfFrom, Bool.and_eq_true, decide_eq_true_eq] at h
    simp only [Memory.set]
    split
    · next hk =>
      simp only [Memory.get]
      rw [if_neg (by omega)]
      exact ih h.2
    · next hk =>
      split
      · next he =>
        split
        · next hv => rw [hv]; exact Memory.get_of_wfFrom_lt h.2 (by omega)
        · simp [Memory.get]
      · next he =>
        split
        · next hv =>
          simp only [Memory.get]
          rw [if_neg (by omega), hv]
          exact Memory.get_of_wfFrom_lt h.2 (by omega)
        · simp [Memory.get]

/-- A read after a write to the same address gives the byte written. -/
theorem Memory.get_set_same {m : Memory} (h : m.wf = true) (a : Nat) (v : Byte) : (m.set a v).get a = v :=
  Memory.get_set_same_from h a v

/-- A write leaves every other address as it was. -/
theorem Memory.get_set_other (m : Memory) {a b : Nat} (v : Byte) (hab : b ≠ a) : (m.set a v).get b = m.get b := by
  induction m with
  | nil =>
    simp only [Memory.set]
    split
    · rfl
    · simp [Memory.get, Ne.symm hab]
  | cons c m ih =>
    obtain ⟨k, w⟩ := c
    simp only [Memory.set]
    split
    · simp only [Memory.get, ih]
    · split
      · next he =>
        have hkb : k ≠ b := by omega
        split
        · simp [Memory.get, hkb]
        · simp [Memory.get, hkb, Ne.symm hab]
      · split
        · rfl
        · simp [Memory.get, Ne.symm hab]

/-- What a write leaves at every address. -/
theorem Memory.get_set {m : Memory} (h : m.wf = true) (a b : Nat) (v : Byte) :
    (m.set a v).get b = if b = a then v else m.get b := by
  split
  · next e => rw [e]; exact Memory.get_set_same h a v
  · next e => exact Memory.get_set_other m v e

/-- A write of a run of bytes leaves every address outside the run as it was. -/
theorem Memory.get_setAll_other (m : Memory) {a b : Nat} {vs : List Byte} (hb : b < a ∨ a + vs.length ≤ b) :
    (m.setAll a vs).get b = m.get b := by
  induction vs generalizing m a with
  | nil => rfl
  | cons v vs ih =>
    simp only [List.length_cons] at hb
    exact (ih (m.set a v) (by omega)).trans (Memory.get_set_other m v (by omega))

/-- A write of a run of bytes that ends in the address space puts byte k of the run at its k-th address. -/
theorem Memory.get_setAll_at {m : Memory} {a k : Nat} {vs : List Byte} (h : m.wf = true)
    (ha : a + vs.length ≤ Config.memSize) (hk : k < vs.length) : (m.setAll a vs).get (a + k) = vs[k] := by
  induction vs generalizing m a k with
  | nil => exact absurd hk (Nat.not_lt_zero k)
  | cons v vs ih =>
    simp only [List.length_cons] at ha hk
    cases k with
    | zero => exact (Memory.get_setAll_other (m.set a v) (.inl (by omega))).trans (Memory.get_set_same h a v)
    | succ k =>
      rw [show a + (k + 1) = a + 1 + k by omega]
      exact ih (Memory.wf_set v h (by omega)) (by omega) (by omega)

/-- Beyond the address space nothing is listed. -/
theorem Memory.get_beyond {m : Memory} {lo a : Nat} (h : Memory.wfFrom lo m = true) (ha : Config.memSize ≤ a) :
    m.get a = Memory.unlisted := by
  induction m generalizing lo with
  | nil => rfl
  | cons c m ih =>
    obtain ⟨k, v⟩ := c
    simp only [Memory.wfFrom, Bool.and_eq_true, decide_eq_true_eq] at h
    simp only [Memory.get]
    rw [if_neg (by omega)]
    exact ih h.2

theorem Memory.ext_from {m n : Memory} {lo lo' : Nat} (hm : Memory.wfFrom lo m = true)
    (hn : Memory.wfFrom lo' n = true) (h : ∀ a, m.get a = n.get a) : m = n := by
  induction m generalizing n lo lo' with
  | nil =>
    cases n with
    | nil => rfl
    | cons c n =>
      obtain ⟨k, v⟩ := c
      simp only [Memory.wfFrom, Bool.and_eq_true, decide_eq_true_eq] at hn
      have := h k
      simp only [Memory.get, if_true] at this
      exact absurd this.symm hn.1.2
  | cons c m ih =>
    obtain ⟨k, v⟩ := c
    simp only [Memory.wfFrom, Bool.and_eq_true, decide_eq_true_eq] at hm
    cases n with
    | nil =>
      have := h k
      simp only [Memory.get, if_true] at this
      exact absurd this hm.1.2
    | cons d n =>
      obtain ⟨l, w⟩ := d
      simp only [Memory.wfFrom, Bool.and_eq_true, decide_eq_true_eq] at hn
      have hk := h k
      have hl := h l
      simp only [Memory.get, if_true] at hk hl
      have hkl : k = l := by
        rcases Nat.lt_trichotomy k l with hlt | heq | hgt
        · rw [if_neg (by omega), Memory.get_of_wfFrom_lt hn.2 (by omega)] at hk
          exact absurd hk hm.1.2
        · exact heq
        · rw [if_neg (by omega), Memory.get_of_wfFrom_lt hm.2 (by omega)] at hl
          exact absurd hl.symm hn.1.2
      subst hkl
      simp only [if_true] at hk
      subst hk
      have hrest : m = n := by
        refine ih hm.2 hn.2 fun a => ?_
        by_cases ha : k = a
        · subst ha
          rw [Memory.get_of_wfFrom_lt hm.2 (by omega), Memory.get_of_wfFrom_lt hn.2 (by omega)]
        · have := h a
          simpa [Memory.get, ha] using this
      rw [hrest]

/-- In canonical form, memories with equal contents are equal lists. -/
theorem Memory.ext {m n : Memory} (hm : m.wf = true) (hn : n.wf = true) (h : ∀ a, m.get a = n.get a) : m = n :=
  Memory.ext_from hm hn h

end Sys2Proof.Machine
end

