-- ==== Sys2Proof/Laws/State.lean ====
section
/-! SUPPORT. What each field update of the state leaves in each field, so that no proof unfolds a record update. -/

namespace Sys2Proof.Machine

variable (s : State)

@[simp] theorem State.setMem_mem (v : Memory) : (s.setMem v).mem = v := rfl
@[simp] theorem State.setMem_sp (v : Memory) : (s.setMem v).sp = s.sp := rfl
@[simp] theorem State.setMem_pc (v : Memory) : (s.setMem v).pc = s.pc := rfl
@[simp] theorem State.setMem_fl (v : Memory) : (s.setMem v).fl = s.fl := rfl
@[simp] theorem State.setMem_status (v : Memory) : (s.setMem v).status = s.status := rfl
@[simp] theorem State.setMem_out (v : Memory) : (s.setMem v).out = s.out := rfl
@[simp] theorem State.setMem_diag (v : Memory) : (s.setMem v).diag = s.diag := rfl

@[simp] theorem State.setSp_mem (v : Byte) : (s.setSp v).mem = s.mem := rfl
@[simp] theorem State.setSp_sp (v : Byte) : (s.setSp v).sp = v := rfl
@[simp] theorem State.setSp_pc (v : Byte) : (s.setSp v).pc = s.pc := rfl
@[simp] theorem State.setSp_fl (v : Byte) : (s.setSp v).fl = s.fl := rfl
@[simp] theorem State.setSp_status (v : Byte) : (s.setSp v).status = s.status := rfl
@[simp] theorem State.setSp_out (v : Byte) : (s.setSp v).out = s.out := rfl
@[simp] theorem State.setSp_diag (v : Byte) : (s.setSp v).diag = s.diag := rfl

@[simp] theorem State.setPc_mem (v : PcWord) : (s.setPc v).mem = s.mem := rfl
@[simp] theorem State.setPc_sp (v : PcWord) : (s.setPc v).sp = s.sp := rfl
@[simp] theorem State.setPc_pc (v : PcWord) : (s.setPc v).pc = v := rfl
@[simp] theorem State.setPc_fl (v : PcWord) : (s.setPc v).fl = s.fl := rfl
@[simp] theorem State.setPc_status (v : PcWord) : (s.setPc v).status = s.status := rfl
@[simp] theorem State.setPc_out (v : PcWord) : (s.setPc v).out = s.out := rfl
@[simp] theorem State.setPc_diag (v : PcWord) : (s.setPc v).diag = s.diag := rfl

@[simp] theorem State.setFl_mem (v : Byte) : (s.setFl v).mem = s.mem := rfl
@[simp] theorem State.setFl_sp (v : Byte) : (s.setFl v).sp = s.sp := rfl
@[simp] theorem State.setFl_pc (v : Byte) : (s.setFl v).pc = s.pc := rfl
@[simp] theorem State.setFl_fl (v : Byte) : (s.setFl v).fl = v := rfl
@[simp] theorem State.setFl_status (v : Byte) : (s.setFl v).status = s.status := rfl
@[simp] theorem State.setFl_out (v : Byte) : (s.setFl v).out = s.out := rfl
@[simp] theorem State.setFl_diag (v : Byte) : (s.setFl v).diag = s.diag := rfl

@[simp] theorem State.setStatus_mem (v : Status) : (s.setStatus v).mem = s.mem := rfl
@[simp] theorem State.setStatus_sp (v : Status) : (s.setStatus v).sp = s.sp := rfl
@[simp] theorem State.setStatus_pc (v : Status) : (s.setStatus v).pc = s.pc := rfl
@[simp] theorem State.setStatus_fl (v : Status) : (s.setStatus v).fl = s.fl := rfl
@[simp] theorem State.setStatus_status (v : Status) : (s.setStatus v).status = v := rfl
@[simp] theorem State.setStatus_out (v : Status) : (s.setStatus v).out = s.out := rfl
@[simp] theorem State.setStatus_diag (v : Status) : (s.setStatus v).diag = s.diag := rfl

@[simp] theorem State.emit_mem (v : Byte) : (s.emit v).mem = s.mem := rfl
@[simp] theorem State.emit_sp (v : Byte) : (s.emit v).sp = s.sp := rfl
@[simp] theorem State.emit_pc (v : Byte) : (s.emit v).pc = s.pc := rfl
@[simp] theorem State.emit_fl (v : Byte) : (s.emit v).fl = s.fl := rfl
@[simp] theorem State.emit_status (v : Byte) : (s.emit v).status = s.status := rfl
@[simp] theorem State.emit_out (v : Byte) : (s.emit v).out = s.out ++ [v] := rfl
@[simp] theorem State.emit_diag (v : Byte) : (s.emit v).diag = s.diag := rfl

@[simp] theorem State.log_mem (v : DiagEvent) : (s.log v).mem = s.mem := rfl
@[simp] theorem State.log_sp (v : DiagEvent) : (s.log v).sp = s.sp := rfl
@[simp] theorem State.log_pc (v : DiagEvent) : (s.log v).pc = s.pc := rfl
@[simp] theorem State.log_fl (v : DiagEvent) : (s.log v).fl = s.fl := rfl
@[simp] theorem State.log_status (v : DiagEvent) : (s.log v).status = s.status := rfl
@[simp] theorem State.log_out (v : DiagEvent) : (s.log v).out = s.out := rfl
@[simp] theorem State.log_diag (v : DiagEvent) : (s.log v).diag = s.diag ++ [v] := rfl

@[simp] theorem advance_mem (op : Byte) : (advance op s).mem = s.mem := rfl
@[simp] theorem advance_sp (op : Byte) : (advance op s).sp = s.sp := rfl
@[simp] theorem advance_pc (op : Byte) : (advance op s).pc = s.pc + BitVec.ofNat 9 (instrLen op) := rfl
@[simp] theorem advance_fl (op : Byte) : (advance op s).fl = s.fl := rfl
@[simp] theorem advance_status (op : Byte) : (advance op s).status = s.status := rfl
@[simp] theorem advance_out (op : Byte) : (advance op s).out = s.out := rfl
@[simp] theorem advance_diag (op : Byte) : (advance op s).diag = s.diag := rfl

@[simp] theorem jumpTo_mem (v : Byte) : (jumpTo v s).mem = s.mem := rfl
@[simp] theorem jumpTo_sp (v : Byte) : (jumpTo v s).sp = s.sp := rfl
@[simp] theorem jumpTo_pc (v : Byte) : (jumpTo v s).pc = v.setWidth 9 := rfl
@[simp] theorem jumpTo_fl (v : Byte) : (jumpTo v s).fl = s.fl := rfl
@[simp] theorem jumpTo_status (v : Byte) : (jumpTo v s).status = s.status := rfl
@[simp] theorem jumpTo_out (v : Byte) : (jumpTo v s).out = s.out := rfl
@[simp] theorem jumpTo_diag (v : Byte) : (jumpTo v s).diag = s.diag := rfl

@[simp] theorem raise_mem (c : Cause) : (raise c s).mem = s.mem := rfl
@[simp] theorem raise_sp (c : Cause) : (raise c s).sp = s.sp := rfl
@[simp] theorem raise_pc (c : Cause) : (raise c s).pc = s.pc := rfl
@[simp] theorem raise_fl (c : Cause) : (raise c s).fl = s.fl := rfl
@[simp] theorem raise_status (c : Cause) : (raise c s).status = .faulted c := rfl
@[simp] theorem raise_out (c : Cause) : (raise c s).out = s.out := rfl
@[simp] theorem raise_diag (c : Cause) : (raise c s).diag = s.diag := rfl

@[simp] theorem powerOn_mem : (powerOn s).mem = s.mem := rfl
@[simp] theorem powerOn_sp : (powerOn s).sp = 0xF4 := rfl
@[simp] theorem powerOn_pc : (powerOn s).pc = 0 := rfl
@[simp] theorem powerOn_fl : (powerOn s).fl = 0x00 := rfl
@[simp] theorem powerOn_status : (powerOn s).status = .running := rfl
@[simp] theorem powerOn_out : (powerOn s).out = [] := rfl
@[simp] theorem powerOn_diag : (powerOn s).diag = [] := rfl

/-- A byte read depends on memory alone. -/
theorem State.byte_congr {s t : State} (h : t.mem = s.mem) (a : Nat) : t.byte a = s.byte a := by
  simp [State.byte, h]

end Sys2Proof.Machine
end

