-- ==== Sys2Proof/Laws/Ops.lean ====
section
/-! SUPPORT. One lemma per shared operation, saying everything it can do. Provers cite these and do not unfold the
operations. -/

namespace Sys2Proof.Machine

variable (s : State)

@[simp] theorem except_ok_bind {ε α β : Type} (a : α) (f : α → Except ε β) : (Except.ok a >>= f) = f a := rfl
@[simp] theorem except_error_bind {ε α β : Type} (e : ε) (f : α → Except ε β) :
    (Except.error e >>= f) = Except.error e := rfl
@[simp] theorem except_pure {ε α : Type} (a : α) : (pure a : Except ε α) = Except.ok a := rfl

/-! Memory primitives. -/

theorem memRead_inRange {a : Nat} (k : AccessKind) (h : a < 256) : memRead s a k = .ok (s.byte a) := by
  simp [memRead, Config.memSize, h]

theorem memRead_beyond {a : Nat} (k : AccessKind) (h : 256 ≤ a) : memRead s a k = .error (.memRange a k) := by
  simp [memRead, Config.memSize, Nat.not_lt.mpr h]

theorem memWrite_inRange {a : Nat} (v : Int) (h : a < 256) :
    memWrite s a v = .ok (s.setMem (s.mem.set a (trunc8 v))) := by
  simp [memWrite, Config.memSize, h]

theorem memWrite_beyond {a : Nat} (v : Int) (h : 256 ≤ a) : memWrite s a v = .error (.memRange a .dataWrite) := by
  simp [memWrite, Config.memSize, Nat.not_lt.mpr h]

@[simp] theorem memRead_byte (a : Byte) (k : AccessKind) : memRead s a.toNat k = .ok (s.byte a.toNat) :=
  memRead_inRange s k a.isLt

@[simp] theorem memWrite_byte (a : Byte) (v : Int) :
    memWrite s a.toNat v = .ok (s.setMem (s.mem.set a.toNat (trunc8 v))) :=
  memWrite_inRange s v a.isLt

/-- The truncation of a nonnegative integer, as a number. -/
theorem trunc8_ofNat_toNat (n : Nat) : (trunc8 (n : Int)).toNat = n % 256 := by
  simp [trunc8]

/-- The truncation of any integer, as a number. -/
theorem trunc8_toNat (v : Int) : ((trunc8 v).toNat : Int) = v % 256 := by
  simp [trunc8, BitVec.toNat_ofInt]
  omega

/-- A byte's value truncates to the byte. -/
@[simp] theorem trunc8_toNat_byte (b : Byte) : trunc8 (b.toNat : Int) = b := by
  apply BitVec.eq_of_toNat_eq
  rw [trunc8_ofNat_toNat]
  exact Nat.mod_eq_of_lt b.isLt

/-! Operands. -/

@[simp] theorem regRead_eq (i : Byte) : regRead s i = .ok (s.slot i) := memRead_byte s i .dataRead

@[simp] theorem regWrite_eq (i : Byte) (v : Int) :
    regWrite s i v = .ok (s.setMem (s.mem.set i.toNat (trunc8 v))) := memWrite_byte s i v

@[simp] theorem memRead_dataAddr (b : Byte) (k : AccessKind) : memRead s (dataAddr b) k = .ok (s.slot b) :=
  memRead_byte s b k

@[simp] theorem memWrite_dataAddr (b : Byte) (v : Int) :
    memWrite s (dataAddr b) v = .ok (s.setMem (s.mem.set b.toNat (trunc8 v))) := memWrite_byte s b v

/-! The stack. -/

theorem push_empty (v : Int) (h : s.sp = 0x00) : push v s = .error (.stackRange (-1)) := by simp [push, h]

theorem push_next (v : Int) (h : s.sp ≠ 0x00) :
    push v s = .ok ((s.setSp (s.sp - 1)).setMem (s.mem.set (s.sp - 1).toNat (trunc8 v))) := by
  rw [push, if_neg h, memWrite_byte, State.setSp_mem]

theorem pop_full (h : s.sp = 0xFF) : pop s = .error (.stackRange 256) := by
  rw [pop, memRead_byte]
  simp [h]

theorem pop_next (h : s.sp ≠ 0xFF) : pop s = .ok (s.byte s.sp.toNat, s.setSp (s.sp + 1)) := by
  rw [pop, memRead_byte, except_ok_bind, if_neg h]

/-! The end of an instruction, and the shapes of the families. -/

@[simp] theorem complete_ok (t : State) : complete s (.ok t) = .next t := rfl
@[simp] theorem complete_error (c : Cause) : complete s (.error c) = .next (raise c s) := rfl

theorem aluBinary_next (op : Byte) (f : Byte → Byte → Int) (ra rb : Byte) :
    aluBinary op f ra rb s =
      .next (advance op (s.setMem (s.mem.set ra.toNat (trunc8 (f (s.slot ra) (s.slot rb)))))) := by
  simp [aluBinary]

theorem aluUnary_next (op : Byte) (f : Byte → Int) (ra : Byte) :
    aluUnary op f ra s = .next (advance op (s.setMem (s.mem.set ra.toNat (trunc8 (f (s.slot ra)))))) := by
  simp [aluUnary]

theorem aluDivide_zero (op : Byte) (f : Byte → Byte → Int) (ra rb : Byte) (h : s.slot rb = 0) :
    aluDivide op f ra rb s = .next (raise (.divideByZero s.pc) s) := by
  simp [aluDivide, h]

theorem aluDivide_next (op : Byte) (f : Byte → Byte → Int) (ra rb : Byte) (h : s.slot rb ≠ 0) :
    aluDivide op f ra rb s =
      .next (advance op (s.setMem (s.mem.set ra.toNat (trunc8 (f (s.slot ra) (s.slot rb)))))) := by
  simp only [aluDivide, regRead_eq, regWrite_eq, except_ok_bind, if_neg h, except_pure, complete_ok]

theorem jumpIf_taken (op ra : Byte) : jumpIf op true ra s = .next (jumpTo (s.slot ra) s) := by simp [jumpIf]

theorem jumpIf_notTaken (op ra : Byte) : jumpIf op false ra s = .next (advance op s) := by simp [jumpIf]

/-! The host's moves and what it receives. -/

theorem loadProgram_ok {bytes : List Byte} (h : bytes.length ≤ 256) :
    loadProgram bytes s = .ok (s.setMem (s.mem.setAll 0 bytes)) := if_pos h

theorem loadProgram_tooLong {bytes : List Byte} (h : 256 < bytes.length) :
    loadProgram bytes s = .error (.storeRange 256) := if_neg (Nat.not_le.mpr h)

/-- Everything a load that succeeds does. -/
theorem loadProgram_eq_ok {bytes : List Byte} {s t : State} (h : loadProgram bytes s = .ok t) :
    bytes.length ≤ 256 ∧ t = s.setMem (s.mem.setAll 0 bytes) := by
  rcases Nat.lt_or_ge 256 bytes.length with hl | hl
  · rw [loadProgram_tooLong s hl] at h
    cases h
  · rw [loadProgram_ok s hl] at h
    exact ⟨hl, (Except.ok.inj h).symm⟩

/-- The `fault` output of a faulted engine. -/
theorem faultOut_faulted {s : State} {c : Cause} (h : s.status = .faulted c) : faultOut s = some (c.code, c) := by
  simp only [faultOut, h]

/-! The step. -/

theorem step_running (h : s.status = .running) :
    step s = match fetch s with
      | .error c => .next (raise c s)
      | .ok (.instr i) => exec i s
      | .ok (.unknown op) => execUnknown op s := by
  cases hf : fetch s with
  | error c => simp only [step, h, hf]
  | ok f => cases f <;> simp only [step, h, hf]

/-- There is a next state, or a refusal, only while the engine runs. -/
theorem step_next_running {s t : State} (h : step s = .next t) : s.status = .running := by
  unfold step at h
  split at h <;> first | assumption | cases h

end Sys2Proof.Machine
end

