-- ==== Sys2Proof/Safety.lean ====
section
/-! DEFINITION. What counts as a good state and a good run, and the words the statements use (spec 10_state.md rules R16,
R18; 60_exceptions.md rules R151, R152; 70_reset_and_hazards.md rules R186, R189). -/

namespace Sys2Proof.Machine

/-! Which bytes two states share. -/

/-- Every byte reads as before. -/
def SameMemory (s t : State) : Prop := ∀ a : Nat, t.byte a = s.byte a

/-- The byte at `addr` is `v` now, and every byte at another address reads as before. -/
def MemoryOnlyAt (addr : Nat) (v : Byte) (s t : State) : Prop :=
  t.byte addr = v ∧ ∀ a : Nat, a ≠ addr → t.byte a = s.byte a

/-! Which instruction a step meets. -/

/-- The bytes of memory from PC on decode to this instruction. -/
def Decoded (s : State) (i : Instr) : Prop := ∃ rest, decode (window s) = .ok (i, rest)

/-- The instruction sets PC explicitly in this state: CALL, RET and JMP always, a conditional jump when its condition
holds (R74). -/
def setsPc (i : Instr) (s : State) : Bool :=
  match i with
  | .call _ | .ret | .jmp _ => true
  | .jeq _ => flagSet s.fl flE
  | .jne _ => !flagSet s.fl flE
  | .jlt _ => flagSet s.fl flL
  | .jgt _ => flagSet s.fl flG
  | .nop | .hlt | .iret | .pra _ | .prn _ | .int _ | .pop _ | .push _ | .not _ | .inc _ | .dec _ | .ld _ _ | .ldi _ _
  | .st _ _ | .cmp _ _ | .add _ _ | .sub _ _ | .mul _ _ | .div _ _ | .mod _ _ | .or _ _ | .xor _ _ | .and _ _ => false

/-- When a running engine meets each fatal condition: the table of rule R151. -/
def FaultCondition (s : State) : Cause → Prop
  | .divideByZero p =>
    p = s.pc ∧ ∃ ra rb, (Decoded s (.div ra rb) ∨ Decoded s (.mod ra rb)) ∧ s.slot rb = 0
  | .memRange a .opcodeFetch => a = s.pc.toNat ∧ 256 ≤ s.pc.toNat
  | .memRange a .operandA =>
    a = 256 ∧ s.pc.toNat = 255 ∧ opClass (s.byte 255) = .defined ∧ 1 ≤ (s.byte 255).toNat / 64
  | .memRange a .operandB =>
    a = 256 ∧ s.pc.toNat = 254 ∧ opClass (s.byte 254) = .defined ∧ (s.byte 254).toNat / 64 = 2
  | .memRange _ .dataRead => False
  | .memRange _ .dataWrite => False
  | .stackRange v =>
    (v = -1 ∧ s.sp = 0x00 ∧ ∃ ra, Decoded s (.push ra) ∨ Decoded s (.call ra)) ∨
    (v = 256 ∧ s.sp = 0xFF ∧ (Decoded s .ret ∨ ∃ ra, Decoded s (.pop ra)))

/-! The invariant. -/

/-- FL holds no flag or exactly one of the three (R18). -/
def flLegal (fl : Byte) : Bool := fl == 0x00 || fl == flE || fl == flG || fl == flL

/-- The run latch tells the truth about the registers beside it: what a halt leaves (R77), and the information a fault
records (R151, R33). -/
def StatusTrue (s : State) : Prop :=
  match s.status with
  | .running => True
  | .halted => 1 ≤ s.pc.toNat ∧ s.pc.toNat ≤ 256
  | .faulted (.divideByZero p) => p = s.pc ∧ s.pc.toNat ≤ 253
  | .faulted (.memRange a .opcodeFetch) => a = s.pc.toNat ∧ 256 ≤ s.pc.toNat
  | .faulted (.memRange a .operandA) => a = 256 ∧ s.pc.toNat = 255
  | .faulted (.memRange a .operandB) => a = 256 ∧ s.pc.toNat = 254
  | .faulted (.memRange _ .dataRead) => False
  | .faulted (.memRange _ .dataWrite) => False
  | .faulted (.stackRange v) => (v = -1 ∧ s.sp = 0x00) ∨ (v = 256 ∧ s.sp = 0xFF)
  | .refused op => isPartial op = true

/-- A diagnostic event names an unknown opcode at an address of memory (R21, R78). -/
def DiagEvent.truthful : DiagEvent → Bool
  | .unknownOpcode pc op => decide (pc.toNat ≤ 255) && decide (opClass op = .unknown)

/-- What every state of a run satisfies. -/
structure Inv (s : State) : Prop where
  /-- Memory is in canonical form, so it holds the 256 addresses and no other (R30). -/
  memory : s.mem.wf = true
  /-- PC is at most 259 (R16). -/
  pcRange : s.pc.toNat ≤ 259
  /-- FL holds at most one flag and its bits 7:3 are 0 (R17, R18). -/
  flags : flLegal s.fl = true
  /-- The run latch tells the truth. -/
  latch : StatusTrue s
  /-- Every diagnostic event tells the truth. -/
  events : s.diag.all DiagEvent.truthful = true

/-! Runs. -/

/-- The driver: it issues at most `k` step requests, and none once the engine has halted or faulted (R186). -/
def drive : Nat → State → Host.Outcome State Fault Refusal
  | 0, s => .next s
  | k + 1, s =>
    match s.status with
    | .running =>
      match step s with
      | .next t => drive k t
      | .fault f => .fault f
      | .refused r => .refused r
    | .halted => .next s
    | .faulted _ => .next s
    | .refused _ => .next s

/-- The only good end of a run: a HLT has executed (R189). -/
def HaltsWithin (k : Nat) (s t : State) : Prop := drive k s = .next t ∧ t.status = .halted

/-- A run of `k` requests that meets no fatal condition and no refusal (R189). -/
def SafeFor (k : Nat) (s : State) : Prop := ∃ t, drive k s = .next t ∧ (t.status = .running ∨ t.status = .halted)

end Sys2Proof.Machine
end

