-- ==== Sys2Proof/Certificates/Slice0/Obligations.lean ====
section
/-! DEFINITION. The statements for the provers. Where a statement says `s.mem.wf = true` it assumes the canonical form of
memory: LoadAndPowerOnMeetInv states it of the state a run starts from, StepKeepsInv of a step and
EveryStateOfARunMeetsInv of every state of a run. A register operand ranges over all bytes; that 7 and the bytes above it
are addresses like the others is the spec's own decision D6 (R12, log entry 6). `t.pc = s.pc + 3` is an addition of 9-bit
words; it does not wrap for the PCs an instruction can be fetched from, 0 to 255 (rule R16, log entry 4), and
PcAdvanceLaw states it in plain numbers. -/

open Sys2Proof Sys2Proof.Machine

/-! ## Reset and the machine as a whole -/

/-- R24, R180. SP's value is the source's; PC, FL, the latch and the streams are the spec's own decisions (D2, D3, D17,
D21, log entries 2 and 3); that reset's memory lists nothing is this model's choice (log entry 1). -/
def Obligations.ResetLeavesTheStatedValues : Prop :=
  (State.reset.sp = 0xF4 ∧ State.reset.pc = 0 ∧ State.reset.fl = 0x00 ∧ State.reset.status = .running ∧
    State.reset.out = [] ∧ State.reset.diag = [] ∧ State.reset.mem = []) ∧
  ∀ s : State, (powerOn s).sp = 0xF4 ∧ (powerOn s).pc = 0 ∧ (powerOn s).fl = 0x00 ∧ (powerOn s).status = .running ∧
    (powerOn s).out = [] ∧ (powerOn s).diag = [] ∧ SameMemory s (powerOn s)

/-- The reset state meets the invariant (R24). That its memory lists no byte is this model's choice (log entry 1), FL's
value and the legal flag values are the spec's own decisions D1 and D2 (log entry 2), PC's value D3, the latch D17 and the
streams D21 (log entry 3). -/
def Obligations.ResetMeetsInv : Prop := Inv State.reset

/-- Every step from a state of the invariant gives a state of the invariant (R16, R18, R30, R33, R77, R78, R151). The
flag values in it are the spec's decision D1 (log entry 2), the fault records its decision D18 (log entry 17). -/
def Obligations.StepKeepsInv : Prop := ∀ s t : State, Inv s → step s = .next t → Inv t

/-- R70: no step unless the engine runs. The names of the stops are this model's (log entry 16). -/
def Obligations.NoStepUnlessRunning : Prop :=
  ∀ s : State,
    (s.status = .halted → step s = .fault .noStepHalted) ∧
    (∀ c, s.status = .faulted c → step s = .fault (.noStepFaulted c)) ∧
    (∀ op, s.status = .refused op → step s = .fault (.noStepRefused op))

/-- R72, R73: the bytes at PC decode to an instruction, and the step is that instruction's meaning; nothing is added
around it. -/
def Obligations.StepRunsTheDecodedInstruction : Prop :=
  ∀ (s : State) (i : Instr) (rest : List Byte),
    s.status = .running → decode (window s) = .ok (i, rest) → step s = exec i s

/-- R78: an unknown opcode is logged and skipped, by `1 + IR[7:6]` bytes, and nothing else changes. For the opcodes 0xC0
to 0xFF the length 4 is the spec's decision D16 (log entry 15). -/
def Obligations.UnknownOpcodeIsLoggedAndSkipped : Prop :=
  ∀ (s : State) (op : Byte),
    s.status = .running → s.pc.toNat ≤ 255 → s.byte s.pc.toNat = op → opClass op = .unknown →
    ∃ t, step s = .next t ∧ t.diag = s.diag ++ [.unknownOpcode s.pc op] ∧
      t.pc.toNat = s.pc.toNat + 1 + op.toNat / 64 ∧
      SameMemory s t ∧ t.sp = s.sp ∧ t.fl = s.fl ∧ t.status = .running ∧ t.out = s.out

/-- R71, R155, R157: the three fetches that can lie beyond the top of memory, and that the step then only latches the
fault. The guarded operand fetch is the spec's decision D7 (log entry 13), codes and latch D17, D18 (log entries 16,
17). -/
def Obligations.FetchBeyondMemoryFaults : Prop :=
  ∀ s : State, s.status = .running →
    (256 ≤ s.pc.toNat → step s = .next (s.setStatus (.faulted (.memRange s.pc.toNat .opcodeFetch)))) ∧
    (s.pc.toNat = 255 → opClass (s.byte 255) = .defined → 1 ≤ (s.byte 255).toNat / 64 →
      step s = .next (s.setStatus (.faulted (.memRange 256 .operandA)))) ∧
    (s.pc.toNat = 254 → opClass (s.byte 254) = .defined → (s.byte 254).toNat / 64 = 2 →
      step s = .next (s.setStatus (.faulted (.memRange 256 .operandB))))

/-- R151: a running engine faults exactly when the table's condition for the cause holds. The set of causes and what each
records are the spec's decision D18 (log entry 17), the ends of SP's range D5 (log entry 5), and that an operand byte is
fetched, and can fault, only where the instruction uses it D7 (log entry 13). -/
def Obligations.FaultsExactlyOnTheTabledConditions : Prop :=
  ∀ (s : State) (c : Cause), s.status = .running →
    ((∃ t, step s = .next t ∧ t.status = .faulted c) ↔ FaultCondition s c)

/-- R152, R150, R151, R27: a step that faults changes the run latch alone, asserts the `fault` output with the cause's code
and information, and no step follows it; in any other status the output is not asserted. The latch is the spec's decision
D17 (log entry 16), the codes 1, 2, 3 and that nothing else changes D18 and D19 (log entry 17), the port D20 (log entry
18). -/
def Obligations.FaultsArePreciseAndFinal : Prop :=
  (∀ (s t : State) (c : Cause), step s = .next t → t.status = .faulted c →
    t = s.setStatus (.faulted c) ∧ step t = .fault (.noStepFaulted c) ∧
    faultOut t = some ((match c with
      | .divideByZero _ => 1
      | .memRange _ _ => 2
      | .stackRange _ => 3), c)) ∧
  ∀ s : State, (∀ c, s.status ≠ .faulted c) → faultOut s = none

/-- R80, R75, R74: the PC-advance law in plain numbers, over a whole step. That the advance uses the opcode byte as it was
fetched and that HLT advances are the spec's decisions D8 and D23 (log entry 7), that CALL reads its target after the push
D13 (log entry 12), the length 4 of the unknown opcodes above 0xBF D16 (log entry 15). -/
def Obligations.PcAdvanceLaw : Prop :=
  ∀ s t : State, step s = .next t → (t.status = .running ∨ t.status = .halted) →
    (∀ i, Decoded s i → setsPc i s = true → t.pc.toNat =
      (match i with
        | .ret => (s.byte s.sp.toNat).toNat
        | .call ra | .jmp ra | .jeq ra | .jne ra | .jlt ra | .jgt ra => (t.slot ra).toNat
        | _ => 0)) ∧
    ((∀ i, Decoded s i → setsPc i s = false) →
      t.pc.toNat = s.pc.toNat + 1 + (s.byte s.pc.toNat).toNat / 64)

/-- R18, R103: a step that leaves FL with another value ran a CMP, and leaves one of the three values (D1, log entry 2). -/
def Obligations.OnlyCmpChangesFlags : Prop :=
  ∀ s t : State, step s = .next t → t.fl ≠ s.fl →
    ∃ ra rb, Decoded s (.cmp ra rb) ∧
      t.fl = (if (s.slot ra).toNat = (s.slot rb).toNat then 0x01
        else if (s.slot ra).toNat < (s.slot rb).toNat then 0x04 else 0x02)

/-- R13: SP changes by exactly one, and only PUSH and CALL (down) and POP and RET (up) change it. R13 and R144 say that
INT, IRET and PRA too adjust SP, in a way the source does not record; that no step is taken for them here is their refusal,
the spec's decision D15 in this model's form (log entry 14). -/
def Obligations.OnlyStackInstructionsMoveSp : Prop :=
  ∀ s t : State, step s = .next t → t.sp ≠ s.sp →
    (t.sp.toNat + 1 = s.sp.toNat ∧ ∃ ra, Decoded s (.push ra) ∨ Decoded s (.call ra)) ∨
    (t.sp.toNat = s.sp.toNat + 1 ∧ (Decoded s .ret ∨ ∃ ra, Decoded s (.pop ra)))

/-- R20, R21: both streams are append-only; only PRN adds to `Out`, and only an unknown opcode to `Diag` (the form of the
streams is the spec's decision D21, log entry 18). -/
def Obligations.StreamsAreAppendOnly : Prop :=
  ∀ s t : State, step s = .next t →
    (t.out = s.out ∨ ∃ ra, Decoded s (.prn ra) ∧ t.out = s.out ++ [s.slot ra]) ∧
    (t.diag = s.diag ∨ (s.pc.toNat ≤ 255 ∧ opClass (s.byte s.pc.toNat) = .unknown ∧
      t.diag = s.diag ++ [.unknownOpcode s.pc (s.byte s.pc.toNat)]))

/-- R19, R77: only HLT halts the engine (the latch is the spec's decision D17, log entry 16). -/
def Obligations.OnlyHltHalts : Prop :=
  ∀ s t : State, step s = .next t → t.status = .halted → Decoded s .hlt

/-- R186: a driver that issues no request once the engine has halted or faulted is never told that there is no step. -/
def Obligations.DriverIsNeverWithoutAStep : Prop :=
  ∀ (k : Nat) (s : State) (f : Fault), drive k s ≠ .fault f

/-- R184: byte k of a loaded program lies at address k, the loader changes nothing else and keeps the canonical form; a
program of more than 256 bytes is not loaded (that the failure names address 256 is this model's choice, log entry 19). -/
def Obligations.LoaderPlacesByteAtItsAddress : Prop :=
  ∀ (bytes : List Byte) (s : State),
    (bytes.length ≤ 256 → s.mem.wf = true → ∃ t, loadProgram bytes s = .ok t ∧
      (∀ k : Nat, (h : k < bytes.length) → t.byte k = bytes[k]) ∧
      (∀ a : Nat, bytes.length ≤ a → t.byte a = s.byte a) ∧ t.mem.wf = true ∧
      t.sp = s.sp ∧ t.pc = s.pc ∧ t.fl = s.fl ∧ t.status = s.status ∧ t.out = s.out ∧ t.diag = s.diag) ∧
    (256 < bytes.length → loadProgram bytes s = .error (.storeRange 256))

/-- R182, R180, R184: power-on makes a state of the invariant from any canonical memory, a load keeps the invariant in
every status, and the load and the reset may be done in either order. The values in the invariant are those that
ResetMeetsInv names. -/
def Obligations.LoadAndPowerOnMeetInv : Prop :=
  (∀ s : State, s.mem.wf = true → Inv (powerOn s)) ∧
  (∀ (bytes : List Byte) (s t : State), Inv s → loadProgram bytes s = .ok t → Inv t) ∧
  (∀ (bytes : List Byte) (s : State), loadProgram bytes (powerOn s) = (loadProgram bytes s).map powerOn)

/-- R189, R182: every state that a run reaches meets the invariant, whatever canonical memory the machine had and whatever
program was loaded into it. -/
def Obligations.EveryStateOfARunMeetsInv : Prop :=
  ∀ (k : Nat) (bytes : List Byte) (s t u : State), s.mem.wf = true → loadProgram bytes (powerOn s) = .ok t →
    drive k t = .next u → Inv u

/-! ## Encoding -/

/-- R50, R52, R55, R56: every instruction's bytes decode to it and leave the rest, and only its bytes do. -/
def Obligations.DecodeAndEncodeAgree : Prop :=
  (∀ (i : Instr) (rest : List Byte), decode (encode i ++ rest) = .ok (i, rest)) ∧
  (∀ (bytes rest : List Byte) (i : Instr), decode bytes = .ok (i, rest) → bytes = encode i ++ rest)

/-- R55, R57: the class of each of the 256 opcode bytes, and that the operand bytes take no part in whether a byte is
accepted. -/
def Obligations.OpcodeClassesAreTheTables : Prop :=
  (∀ op : Byte, opClass op = .defined ↔ op.toNat ∈
    [0, 1, 9, 67, 72, 76, 77, 80, 81, 82, 83, 84, 112, 120, 121, 152, 153, 154, 160, 168, 169, 170, 171, 172, 177, 178,
      179]) ∧
  (∀ op : Byte, opClass op = .partiallyImplemented ↔ op.toNat ∈ [11, 66, 74]) ∧
  (∀ (op a b : Byte) (rest : List Byte),
    (∃ r, decode (op :: a :: b :: rest) = .ok r) ↔ opClass op ≠ .unknown)

/-- R56, R59: words written out from the table decode to the instructions they stand for. -/
def Obligations.WrittenOutWordsDecode : Prop :=
  decode [0#8] = .ok (.nop, []) ∧ decode [1#8] = .ok (.hlt, []) ∧ decode [9#8] = .ok (.ret, []) ∧
  decode [74#8, 5#8] = .ok (.int 5, []) ∧ decode [67#8, 0#8] = .ok (.prn 0, []) ∧
  decode [72#8, 1#8] = .ok (.call 1, []) ∧ decode [81#8, 3#8] = .ok (.jeq 3, []) ∧
  decode [120#8, 2#8] = .ok (.inc 2, []) ∧ decode [153#8, 0#8, 8#8] = .ok (.ldi 0 8, []) ∧
  decode [154#8, 1#8, 0#8] = .ok (.st 1 0, []) ∧ decode [160#8, 2#8, 3#8] = .ok (.cmp 2 3, []) ∧
  decode [168#8, 0#8, 1#8] = .ok (.add 0 1, [])

/-! ## Memory -/

/-- R31. -/
def Obligations.MemReadInRangeOrFault : Prop :=
  ∀ (s : State) (addr : Nat) (kind : AccessKind),
    (addr ≤ 255 → memRead s addr kind = .ok (s.byte addr)) ∧
    (255 < addr → memRead s addr kind = .error (.memRange addr kind))

/-- R32: a write changes exactly the addressed byte and truncates. The reduction of a negative value modulo 256 is the
spec's decision D9 (log entry 8). -/
def Obligations.MemWriteChangesOneByte : Prop :=
  ∀ (s : State) (addr : Nat) (v : Int), s.mem.wf = true →
    (addr ≤ 255 → ∃ t, memWrite s addr v = .ok t ∧ ((t.byte addr).toNat : Int) = v % 256 ∧
      (∀ a, a ≠ addr → t.byte a = s.byte a) ∧ t.mem.wf = true ∧ t.sp = s.sp ∧ t.pc = s.pc ∧ t.fl = s.fl ∧
      t.status = s.status ∧ t.out = s.out ∧ t.diag = s.diag) ∧
    (255 < addr → memWrite s addr v = .error (.memRange addr .dataWrite))

/-- R42, R39: the byte a ST stores at the next instruction's address is the opcode byte the next step fetches. ST's
meaning is the spec's decision D11 (log entry 11). -/
def Obligations.StoreIsSeenByTheNextFetch : Prop :=
  ∀ (s : State) (ra rb : Byte), s.mem.wf = true → s.pc.toNat ≤ 252 → (s.slot ra).toNat = s.pc.toNat + 3 →
    ∃ t, exec (.st ra rb) s = .next t ∧ (window t).head? = some (s.slot rb)

/-- R71, R75, R42: an LDI that overwrites its own opcode byte still advances by the length of the byte that was fetched
(the latching is the spec's decision D8, log entry 7). -/
def Obligations.OverwrittenOpcodeStillAdvancesByThree : Prop :=
  ∀ (s : State) (imm : Byte), s.status = .running → s.mem.wf = true → s.pc.toNat ≤ 253 →
    s.byte s.pc.toNat = 153 → s.byte (s.pc.toNat + 1) = s.pc.setWidth 8 → s.byte (s.pc.toNat + 2) = imm →
    ∃ t, step s = .next t ∧ MemoryOnlyAt s.pc.toNat imm s t ∧ t.pc.toNat = s.pc.toNat + 3 ∧
      t.sp = s.sp ∧ t.fl = s.fl ∧ t.status = s.status ∧ t.out = s.out ∧ t.diag = s.diag

/-! ## ALU -/

/-- R91. -/
def Obligations.AddStoresTheSum : Prop :=
  ∀ (s : State) (ra rb : Byte), s.mem.wf = true →
    encode (.add ra rb) = [168, ra, rb] ∧
    ∃ t, exec (.add ra rb) s = .next t ∧
      (t.slot ra).toNat = ((s.slot ra).toNat + (s.slot rb).toNat) % 256 ∧
      MemoryOnlyAt ra.toNat (t.slot ra) s t ∧ t.pc = s.pc + 3 ∧
      t.sp = s.sp ∧ t.fl = s.fl ∧ t.status = s.status ∧ t.out = s.out ∧ t.diag = s.diag

/-- R92: operand A minus operand B (the order is the spec's decision D10, the wrap D9; log entries 8 and 9). -/
def Obligations.SubStoresTheDifference : Prop :=
  ∀ (s : State) (ra rb : Byte), s.mem.wf = true →
    encode (.sub ra rb) = [169, ra, rb] ∧
    ∃ t, exec (.sub ra rb) s = .next t ∧
      (t.slot ra).toNat = (if (s.slot rb).toNat ≤ (s.slot ra).toNat then (s.slot ra).toNat - (s.slot rb).toNat
        else (s.slot ra).toNat + 256 - (s.slot rb).toNat) ∧
      MemoryOnlyAt ra.toNat (t.slot ra) s t ∧ t.pc = s.pc + 3 ∧
      t.sp = s.sp ∧ t.fl = s.fl ∧ t.status = s.status ∧ t.out = s.out ∧ t.diag = s.diag

/-- R93. -/
def Obligations.MulStoresTheLowByteOfTheProduct : Prop :=
  ∀ (s : State) (ra rb : Byte), s.mem.wf = true →
    encode (.mul ra rb) = [170, ra, rb] ∧
    ∃ t, exec (.mul ra rb) s = .next t ∧
      (t.slot ra).toNat = ((s.slot ra).toNat * (s.slot rb).toNat) % 256 ∧
      MemoryOnlyAt ra.toNat (t.slot ra) s t ∧ t.pc = s.pc + 3 ∧
      t.sp = s.sp ∧ t.fl = s.fl ∧ t.status = s.status ∧ t.out = s.out ∧ t.diag = s.diag

/-- R94, R95 with a divisor that is not 0: the floor quotient and the remainder (the operand order and the rounding are
the spec's decision D10, log entry 9). -/
def Obligations.DivAndModStoreQuotientAndRemainder : Prop :=
  ∀ (s : State) (ra rb : Byte), s.mem.wf = true → s.slot rb ≠ 0 →
    (∃ t, exec (.div ra rb) s = .next t ∧
      (t.slot ra).toNat = (s.slot ra).toNat / (s.slot rb).toNat ∧
      MemoryOnlyAt ra.toNat (t.slot ra) s t ∧ t.pc = s.pc + 3 ∧
      t.sp = s.sp ∧ t.fl = s.fl ∧ t.status = s.status ∧ t.out = s.out ∧ t.diag = s.diag) ∧
    (∃ t, exec (.mod ra rb) s = .next t ∧
      (t.slot ra).toNat = (s.slot ra).toNat % (s.slot rb).toNat ∧
      MemoryOnlyAt ra.toNat (t.slot ra) s t ∧ t.pc = s.pc + 3 ∧
      t.sp = s.sp ∧ t.fl = s.fl ∧ t.status = s.status ∧ t.out = s.out ∧ t.diag = s.diag)

/-- R94, R95, R154: a divisor byte of 0 is fatal, whatever the dividend, and nothing but the run latch changes; no step
follows (the cause's name and record are the spec's decision D18, log entries 16 and 17). -/
def Obligations.DivAndModByZeroAreFatal : Prop :=
  ∀ (s : State) (ra rb : Byte), s.slot rb = 0 →
    exec (.div ra rb) s = .next (s.setStatus (.faulted (.divideByZero s.pc))) ∧
    exec (.mod ra rb) s = .next (s.setStatus (.faulted (.divideByZero s.pc))) ∧
    step (s.setStatus (.faulted (.divideByZero s.pc))) = .fault (.noStepFaulted (.divideByZero s.pc))

/-- R95: `(a div b) * b + (a mod b) = a` (D10, log entry 9). -/
def Obligations.DivAndModRecomposeTheDividend : Prop :=
  ∀ (s : State) (ra rb : Byte), s.mem.wf = true → s.slot rb ≠ 0 →
    ∃ t u, exec (.div ra rb) s = .next t ∧ exec (.mod ra rb) s = .next u ∧
      (t.slot ra).toNat * (s.slot rb).toNat + (u.slot ra).toNat = (s.slot ra).toNat ∧
      (u.slot ra).toNat < (s.slot rb).toNat

/-- R96, R97, R98: INC, DEC and NOT in place (what the mnemonics mean is the spec's decision D12, log entry 11). -/
def Obligations.IncDecNotWorkInPlace : Prop :=
  ∀ (s : State) (ra : Byte), s.mem.wf = true →
    (∃ t, exec (.inc ra) s = .next t ∧ (t.slot ra).toNat = ((s.slot ra).toNat + 1) % 256 ∧
      MemoryOnlyAt ra.toNat (t.slot ra) s t ∧ t.pc = s.pc + 2 ∧
      t.sp = s.sp ∧ t.fl = s.fl ∧ t.status = s.status ∧ t.out = s.out ∧ t.diag = s.diag) ∧
    (∃ t, exec (.dec ra) s = .next t ∧ (t.slot ra).toNat = ((s.slot ra).toNat + 255) % 256 ∧
      MemoryOnlyAt ra.toNat (t.slot ra) s t ∧ t.pc = s.pc + 2 ∧
      t.sp = s.sp ∧ t.fl = s.fl ∧ t.status = s.status ∧ t.out = s.out ∧ t.diag = s.diag) ∧
    (∃ t, exec (.not ra) s = .next t ∧ (t.slot ra).toNat = 255 - (s.slot ra).toNat ∧
      MemoryOnlyAt ra.toNat (t.slot ra) s t ∧ t.pc = s.pc + 2 ∧
      t.sp = s.sp ∧ t.fl = s.fl ∧ t.status = s.status ∧ t.out = s.out ∧ t.diag = s.diag)

/-- R99, R100, R101, bit by bit (the operators and roles are the spec's decision D12, log entry 11). -/
def Obligations.BitwiseOperationsWorkBitByBit : Prop :=
  ∀ (s : State) (ra rb : Byte), s.mem.wf = true →
    (∃ t, exec (.and ra rb) s = .next t ∧
      (∀ k : Nat, (t.slot ra).getLsbD k = ((s.slot ra).getLsbD k && (s.slot rb).getLsbD k)) ∧
      MemoryOnlyAt ra.toNat (t.slot ra) s t ∧ t.pc = s.pc + 3 ∧
      t.sp = s.sp ∧ t.fl = s.fl ∧ t.status = s.status ∧ t.out = s.out ∧ t.diag = s.diag) ∧
    (∃ t, exec (.or ra rb) s = .next t ∧
      (∀ k : Nat, (t.slot ra).getLsbD k = ((s.slot ra).getLsbD k || (s.slot rb).getLsbD k)) ∧
      MemoryOnlyAt ra.toNat (t.slot ra) s t ∧ t.pc = s.pc + 3 ∧
      t.sp = s.sp ∧ t.fl = s.fl ∧ t.status = s.status ∧ t.out = s.out ∧ t.diag = s.diag) ∧
    (∃ t, exec (.xor ra rb) s = .next t ∧
      (∀ k : Nat, (t.slot ra).getLsbD k = ((s.slot ra).getLsbD k ^^ (s.slot rb).getLsbD k)) ∧
      MemoryOnlyAt ra.toNat (t.slot ra) s t ∧ t.pc = s.pc + 3 ∧
      t.sp = s.sp ∧ t.fl = s.fl ∧ t.status = s.status ∧ t.out = s.out ∧ t.diag = s.diag)

/-- R103: CMP replaces the whole of FL and writes no memory (the flag values are the spec's decision D1, the unsigned
order D25; log entries 2 and 10). -/
def Obligations.CmpReplacesTheFlags : Prop :=
  ∀ (s : State) (ra rb : Byte),
    ∃ t, exec (.cmp ra rb) s = .next t ∧
      t.fl = (if (s.slot ra).toNat = (s.slot rb).toNat then 0x01
        else if (s.slot ra).toNat < (s.slot rb).toNat then 0x04 else 0x02) ∧
      SameMemory s t ∧ t.pc = s.pc + 3 ∧ t.sp = s.sp ∧ t.status = s.status ∧ t.out = s.out ∧ t.diag = s.diag

/-- R104: the same register twice. -/
def Obligations.SameRegisterTwice : Prop :=
  ∀ (s : State) (ra : Byte), s.mem.wf = true →
    (∃ t, exec (.add ra ra) s = .next t ∧ (t.slot ra).toNat = 2 * (s.slot ra).toNat % 256) ∧
    (∃ t, exec (.sub ra ra) s = .next t ∧ t.slot ra = 0) ∧
    (∃ t, exec (.xor ra ra) s = .next t ∧ t.slot ra = 0) ∧
    (∃ t, exec (.and ra ra) s = .next t ∧ t.slot ra = s.slot ra) ∧
    (∃ t, exec (.or ra ra) s = .next t ∧ t.slot ra = s.slot ra) ∧
    (∃ t, exec (.mul ra ra) s = .next t ∧ (t.slot ra).toNat = (s.slot ra).toNat * (s.slot ra).toNat % 256) ∧
    (s.slot ra ≠ 0 → ∃ t, exec (.div ra ra) s = .next t ∧ t.slot ra = 1) ∧
    (s.slot ra ≠ 0 → ∃ t, exec (.mod ra ra) s = .next t ∧ t.slot ra = 0) ∧
    (s.slot ra = 0 → ∀ i ∈ [Instr.div ra ra, Instr.mod ra ra], ∃ t, exec i s = .next t ∧
      t.status = .faulted (.divideByZero s.pc)) ∧
    (∃ t, exec (.cmp ra ra) s = .next t ∧ t.fl = 0x01)

/-! ## Data movement and output -/

/-- R110. That an operand byte of 7 or more is the address of a byte of memory, and 7 not SP, is the spec's own decision D6
(R12, log entry 6). -/
def Obligations.LdiWritesTheImmediate : Prop :=
  ∀ (s : State) (ra imm : Byte), s.mem.wf = true →
    encode (.ldi ra imm) = [153, ra, imm] ∧
    ∃ t, exec (.ldi ra imm) s = .next t ∧ MemoryOnlyAt ra.toNat imm s t ∧ t.pc = s.pc + 3 ∧
      t.sp = s.sp ∧ t.fl = s.fl ∧ t.status = s.status ∧ t.out = s.out ∧ t.diag = s.diag

/-- R111: `Mem[opA] <- Mem[Mem[opB]]` (the spec's decision D11, log entry 11). -/
def Obligations.LdLoadsThroughOperandB : Prop :=
  ∀ (s : State) (ra rb : Byte), s.mem.wf = true →
    ∃ t, exec (.ld ra rb) s = .next t ∧ MemoryOnlyAt ra.toNat (s.byte (s.slot rb).toNat) s t ∧ t.pc = s.pc + 3 ∧
      t.sp = s.sp ∧ t.fl = s.fl ∧ t.status = s.status ∧ t.out = s.out ∧ t.diag = s.diag

/-- R112: `Mem[Mem[opA]] <- Mem[opB]` (the spec's decision D11, log entry 11). -/
def Obligations.StStoresThroughOperandA : Prop :=
  ∀ (s : State) (ra rb : Byte), s.mem.wf = true →
    ∃ t, exec (.st ra rb) s = .next t ∧ MemoryOnlyAt (dataAddr (s.slot ra)) (s.slot rb) s t ∧ t.pc = s.pc + 3 ∧
      t.sp = s.sp ∧ t.fl = s.fl ∧ t.status = s.status ∧ t.out = s.out ∧ t.diag = s.diag

/-- R113: one byte appended to the output, no memory byte written (the form of the output is the spec's decision D21). -/
def Obligations.PrnAppendsTheByte : Prop :=
  ∀ (s : State) (ra : Byte),
    ∃ t, exec (.prn ra) s = .next t ∧ t.out = s.out ++ [s.slot ra] ∧ SameMemory s t ∧ t.pc = s.pc + 2 ∧
      t.sp = s.sp ∧ t.fl = s.fl ∧ t.status = s.status ∧ t.diag = s.diag

/-! ## Stack, call and return -/

/-- R120: PUSH where SP is not 0x00. -/
def Obligations.PushWritesBelowSp : Prop :=
  ∀ (s : State) (ra : Byte), s.mem.wf = true → s.sp ≠ 0x00 →
    ∃ t, exec (.push ra) s = .next t ∧ MemoryOnlyAt (s.sp - 1).toNat (s.slot ra) s t ∧
      t.sp.toNat + 1 = s.sp.toNat ∧ t.pc = s.pc + 2 ∧
      t.fl = s.fl ∧ t.status = s.status ∧ t.out = s.out ∧ t.diag = s.diag

/-- R121: POP where SP is not 0xFF. -/
def Obligations.PopReadsAtSp : Prop :=
  ∀ (s : State) (ra : Byte), s.mem.wf = true → s.sp ≠ 0xFF →
    ∃ t, exec (.pop ra) s = .next t ∧ MemoryOnlyAt ra.toNat (s.byte s.sp.toNat) s t ∧
      t.sp.toNat = s.sp.toNat + 1 ∧ t.pc = s.pc + 2 ∧
      t.fl = s.fl ∧ t.status = s.status ∧ t.out = s.out ∧ t.diag = s.diag

/-- R122: CALL where SP is not 0x00; the target is read after the push (the spec's decision D13; the truncation of the
return address is D14; log entry 12). -/
def Obligations.CallPushesTheReturnAddress : Prop :=
  ∀ (s : State) (ra : Byte), s.mem.wf = true → s.sp ≠ 0x00 →
    ∃ t v, exec (.call ra) s = .next t ∧ MemoryOnlyAt (s.sp - 1).toNat v s t ∧
      v.toNat = (s.pc.toNat + 2) % 256 ∧ t.pc.toNat = (t.slot ra).toNat ∧
      t.sp.toNat + 1 = s.sp.toNat ∧ t.fl = s.fl ∧ t.status = s.status ∧ t.out = s.out ∧ t.diag = s.diag

/-- R123: RET where SP is not 0xFF. -/
def Obligations.RetPopsIntoPc : Prop :=
  ∀ s : State, s.sp ≠ 0xFF →
    ∃ t, exec .ret s = .next t ∧ t.pc.toNat = (s.byte s.sp.toNat).toNat ∧ t.sp.toNat = s.sp.toNat + 1 ∧
      SameMemory s t ∧ t.fl = s.fl ∧ t.status = s.status ∧ t.out = s.out ∧ t.diag = s.diag

/-- R14, R156: the two ends of SP's range (the spec's decision D5, log entry 5): nothing but the run latch changes. -/
def Obligations.SpDoesNotWrap : Prop :=
  ∀ (s : State) (ra : Byte),
    (s.sp = 0x00 →
      exec (.push ra) s = .next (s.setStatus (.faulted (.stackRange (-1)))) ∧
      exec (.call ra) s = .next (s.setStatus (.faulted (.stackRange (-1))))) ∧
    (s.sp = 0xFF →
      exec (.pop ra) s = .next (s.setStatus (.faulted (.stackRange 256))) ∧
      exec .ret s = .next (s.setStatus (.faulted (.stackRange 256))))

/-- R121, R120: "PUSH then POP into the same register is idempotent", for every register operand, the slot the push lands
on included. -/
def Obligations.PushThenPopRestores : Prop :=
  ∀ (s : State) (ra : Byte), s.mem.wf = true → s.sp ≠ 0x00 →
    ∃ t u, exec (.push ra) s = .next t ∧ exec (.pop ra) t = .next u ∧ u.slot ra = s.slot ra ∧ u.sp = s.sp ∧
      MemoryOnlyAt (s.sp - 1).toNat (s.slot ra) s u

/-- R122, R123: "CALL followed immediately by RET returns PC to the instruction directly after the CALL, and leaves the
stack pointer at its pre-CALL value", for a CALL whose return address fits a byte. -/
def Obligations.CallThenRetReturns : Prop :=
  ∀ (s : State) (ra : Byte), s.mem.wf = true → s.sp ≠ 0x00 → s.pc.toNat ≤ 253 →
    ∃ t u, exec (.call ra) s = .next t ∧ exec .ret t = .next u ∧ u.pc.toNat = s.pc.toNat + 2 ∧ u.sp = s.sp

/-! ## Jumps -/

/-- R124; a target equal to the JMP's own address leaves the whole state as it was, an endless loop. -/
def Obligations.JmpGoesToTheSlotsAddress : Prop :=
  ∀ (s : State) (ra : Byte),
    encode (.jmp ra) = [80, ra] ∧
    ∃ t, exec (.jmp ra) s = .next t ∧ t.pc.toNat = (s.slot ra).toNat ∧
      ((s.slot ra).toNat = s.pc.toNat → t = s) ∧
      SameMemory s t ∧ t.sp = s.sp ∧ t.fl = s.fl ∧ t.status = s.status ∧ t.out = s.out ∧ t.diag = s.diag

/-- R125 to R128: each conditional jump, taken and not taken, on every value of FL (the flag values are the spec's
decision D1, the form of the test D24; log entries 2 and 12). -/
def Obligations.ConditionalJumpsTestTheirFlag : Prop :=
  ∀ (s : State) (ra : Byte),
    (∃ t, exec (.jeq ra) s = .next t ∧
      (if s.fl &&& 0x01 ≠ 0 then t.pc.toNat = (s.slot ra).toNat else t.pc = s.pc + 2) ∧
      SameMemory s t ∧ t.sp = s.sp ∧ t.fl = s.fl ∧ t.status = s.status ∧ t.out = s.out ∧ t.diag = s.diag) ∧
    (∃ t, exec (.jne ra) s = .next t ∧
      (if s.fl &&& 0x01 = 0 then t.pc.toNat = (s.slot ra).toNat else t.pc = s.pc + 2) ∧
      SameMemory s t ∧ t.sp = s.sp ∧ t.fl = s.fl ∧ t.status = s.status ∧ t.out = s.out ∧ t.diag = s.diag) ∧
    (∃ t, exec (.jlt ra) s = .next t ∧
      (if s.fl &&& 0x04 ≠ 0 then t.pc.toNat = (s.slot ra).toNat else t.pc = s.pc + 2) ∧
      SameMemory s t ∧ t.sp = s.sp ∧ t.fl = s.fl ∧ t.status = s.status ∧ t.out = s.out ∧ t.diag = s.diag) ∧
    (∃ t, exec (.jgt ra) s = .next t ∧
      (if s.fl &&& 0x02 ≠ 0 then t.pc.toNat = (s.slot ra).toNat else t.pc = s.pc + 2) ∧
      SameMemory s t ∧ t.sp = s.sp ∧ t.fl = s.fl ∧ t.status = s.status ∧ t.out = s.out ∧ t.diag = s.diag)

/-- R103 with R125 to R128, whatever the flags' bit positions: after a CMP the four jumps are taken exactly on equal, not
equal, less and greater, as unsigned bytes (the unsigned order is the spec's decision D25, log entry 10). -/
def Obligations.CompareDecidesTheNextJump : Prop :=
  ∀ (s : State) (ra rb rt : Byte), ∃ t, exec (.cmp ra rb) s = .next t ∧
    (setsPc (.jeq rt) t = true ↔ s.slot ra = s.slot rb) ∧
    (setsPc (.jne rt) t = true ↔ s.slot ra ≠ s.slot rb) ∧
    (setsPc (.jlt rt) t = true ↔ (s.slot ra).toNat < (s.slot rb).toNat) ∧
    (setsPc (.jgt rt) t = true ↔ (s.slot rb).toNat < (s.slot ra).toNat) ∧
    (∀ i ∈ [Instr.jeq rt, Instr.jne rt, Instr.jlt rt, Instr.jgt rt], ∃ u, exec i t = .next u ∧
      (if setsPc i t = true then u.pc.toNat = (s.slot rt).toNat else u.pc = t.pc + 2))

/-! ## NOP, HLT and the partial opcodes -/

/-- R76, R77: NOP only advances; HLT halts and advances (that HLT advances is the spec's decision D23, log entry 7). -/
def Obligations.NopAndHltAdvance : Prop :=
  ∀ s : State,
    (∃ t, exec .nop s = .next t ∧ t.pc = s.pc + 1 ∧ SameMemory s t ∧ t.sp = s.sp ∧ t.fl = s.fl ∧
      t.status = s.status ∧ t.out = s.out ∧ t.diag = s.diag) ∧
    (∃ t, exec .hlt s = .next t ∧ t.status = .halted ∧ haltReq t = true ∧ t.pc = s.pc + 1 ∧ SameMemory s t ∧
      t.sp = s.sp ∧ t.fl = s.fl ∧ t.out = s.out ∧ t.diag = s.diag)

/-- R140 to R143: INT, IRET and PRA stop the model with `status <- Refused(IR)` and no other change, before any operand
fetch, so at address 255 too. The refusal is the spec's decision D15 (log entry 14). -/
def Obligations.PartialOpcodesAreRefused : Prop :=
  (∀ (s : State) (a : Byte),
    exec (.int a) s = .refused (.partialOpcode 74 (s.setStatus (.refused 74))) ∧
    exec .iret s = .refused (.partialOpcode 11 (s.setStatus (.refused 11))) ∧
    exec (.pra a) s = .refused (.partialOpcode 66 (s.setStatus (.refused 66)))) ∧
  (∀ (s : State) (op : Byte), s.status = .running → s.pc.toNat ≤ 255 → s.byte s.pc.toNat = op →
    op.toNat ∈ [11, 66, 74] → step s = .refused (.partialOpcode op (s.setStatus (.refused op))))
end

