-- ==== Sys2Proof/Laws/Fetch.lean ====
section
/-! SUPPORT. What a fetch can bring, and that it reads the instruction the decoder reads from the bytes at PC. -/

namespace Sys2Proof.Machine

variable {s : State}

/-! The bytes from PC on, by where PC lies. -/

theorem window_three (h : s.pc.toNat ≤ 253) :
    window s = [s.byte s.pc.toNat, s.byte (s.pc.toNat + 1), s.byte (s.pc.toNat + 2)] := by
  have h0 : s.pc.toNat < 256 := by omega
  have h1 : s.pc.toNat + 1 < 256 := by omega
  have h2 : s.pc.toNat + 2 < 256 := by omega
  simp [window, Config.memSize, h0, h1, h2]

theorem window_two (h : s.pc.toNat = 254) : window s = [s.byte 254, s.byte 255] := by
  simp [window, Config.memSize, h]

theorem window_one (h : s.pc.toNat = 255) : window s = [s.byte 255] := by
  simp [window, Config.memSize, h]

theorem window_none (h : 256 ≤ s.pc.toNat) : window s = [] := by
  have h0 : ¬ s.pc.toNat < 256 := by omega
  have h1 : ¬ s.pc.toNat + 1 < 256 := by omega
  have h2 : ¬ s.pc.toNat + 2 < 256 := by omega
  simp [window, Config.memSize, h0, h1, h2]

/-! The fetch, by PC and by the form of the opcode byte. -/

theorem fetch_beyond (h : 256 ≤ s.pc.toNat) : fetch s = .error (.memRange s.pc.toNat .opcodeFetch) := by
  simp [fetch, memRead_beyond s .opcodeFetch h]

theorem fetch_unknown (h : s.pc.toNat ≤ 255) (hf : formOf (s.byte s.pc.toNat) = none) :
    fetch s = .ok (.unknown (s.byte s.pc.toNat)) := by
  simp [fetch, memRead_inRange s .opcodeFetch (show s.pc.toNat < 256 by omega), hf]

theorem fetch_op0 {i : Instr} (h : s.pc.toNat ≤ 255) (hf : formOf (s.byte s.pc.toNat) = some (.op0 i)) :
    fetch s = .ok (.instr i) := by
  simp [fetch, memRead_inRange s .opcodeFetch (show s.pc.toNat < 256 by omega), hf]

theorem fetch_op1 {mk : Byte → Instr} (h : s.pc.toNat ≤ 254)
    (hf : formOf (s.byte s.pc.toNat) = some (.op1 mk)) :
    fetch s = .ok (.instr (mk (s.byte (s.pc.toNat + 1)))) := by
  have h1 := memRead_inRange s .operandA (show s.pc.toNat + 1 < 256 by omega)
  simp [fetch, fetchOperandA, memRead_inRange s .opcodeFetch (show s.pc.toNat < 256 by omega), hf, h1]

theorem fetch_op1_partial {mk : Byte → Instr} (h : s.pc.toNat ≤ 255)
    (hf : formOf (s.byte s.pc.toNat) = some (.op1 mk)) (hp : isPartial (s.byte s.pc.toNat) = true) :
    fetch s = .ok (.instr (mk (s.byte (s.pc.toNat + 1)))) := by
  simp [fetch, fetchOperandA, memRead_inRange s .opcodeFetch (show s.pc.toNat < 256 by omega), hf, hp]

theorem fetch_op1_beyond {mk : Byte → Instr} (h : s.pc.toNat = 255)
    (hf : formOf (s.byte 255) = some (.op1 mk)) (hp : isPartial (s.byte 255) = false) :
    fetch s = .error (.memRange 256 .operandA) := by
  simp [fetch, fetchOperandA, h, memRead_inRange s .opcodeFetch (show 255 < 256 by omega), hf, hp,
    memRead_beyond s .operandA (show 256 ≤ 256 by omega)]

theorem fetch_op2 {mk : Byte → Byte → Instr} (h : s.pc.toNat ≤ 253)
    (hf : formOf (s.byte s.pc.toNat) = some (.op2 mk)) :
    fetch s = .ok (.instr (mk (s.byte (s.pc.toNat + 1)) (s.byte (s.pc.toNat + 2)))) := by
  simp [fetch, memRead_inRange s .opcodeFetch (show s.pc.toNat < 256 by omega), hf,
    memRead_inRange s .operandA (show s.pc.toNat + 1 < 256 by omega),
    memRead_inRange s .operandB (show s.pc.toNat + 2 < 256 by omega)]

theorem fetch_op2_noB {mk : Byte → Byte → Instr} (h : s.pc.toNat = 254)
    (hf : formOf (s.byte 254) = some (.op2 mk)) : fetch s = .error (.memRange 256 .operandB) := by
  simp [fetch, h, memRead_inRange s .opcodeFetch (show 254 < 256 by omega), hf,
    memRead_inRange s .operandA (show 255 < 256 by omega), memRead_beyond s .operandB (show 256 ≤ 256 by omega)]

theorem fetch_op2_noA {mk : Byte → Byte → Instr} (h : s.pc.toNat = 255)
    (hf : formOf (s.byte 255) = some (.op2 mk)) : fetch s = .error (.memRange 256 .operandA) := by
  simp [fetch, h, memRead_inRange s .opcodeFetch (show 255 < 256 by omega), hf,
    memRead_beyond s .operandA (show 256 ≤ 256 by omega)]

/-- What the decoder reads at PC is what the fetch brings. -/
theorem fetch_of_decoded {i : Instr} (h : Decoded s i) : fetch s = .ok (.instr i) := by
  obtain ⟨rest, h⟩ := h
  rcases Nat.lt_or_ge s.pc.toNat 254 with h3 | h3
  · rw [window_three (by omega), decode] at h
    cases hf : formOf (s.byte s.pc.toNat) with
    | none => simp [hf] at h
    | some f =>
      cases f with
      | op0 j => simp [hf] at h; rw [fetch_op0 (by omega) hf, h.1]
      | op1 mk => simp [hf] at h; rw [fetch_op1 (by omega) hf, h.1]
      | op2 mk => simp [hf] at h; rw [fetch_op2 (by omega) hf, h.1]
  · rcases Nat.lt_or_ge s.pc.toNat 255 with h2 | h2
    · have e : s.pc.toNat = 254 := by omega
      rw [window_two e, decode] at h
      have hb : s.byte s.pc.toNat = s.byte 254 := by rw [e]
      have hb1 : s.byte (s.pc.toNat + 1) = s.byte 255 := by rw [e]
      cases hf : formOf (s.byte 254) with
      | none => simp [hf] at h
      | some f =>
        cases f with
        | op0 j => simp [hf] at h; rw [fetch_op0 (by omega) (hb ▸ hf), h.1]
        | op1 mk => simp [hf] at h; rw [fetch_op1 (by omega) (hb ▸ hf), hb1, h.1]
        | op2 mk => simp [hf] at h
    · rcases Nat.lt_or_ge s.pc.toNat 256 with h1 | h1
      · have e : s.pc.toNat = 255 := by omega
        rw [window_one e, decode] at h
        have hb : s.byte s.pc.toNat = s.byte 255 := by rw [e]
        cases hf : formOf (s.byte 255) with
        | none => simp [hf] at h
        | some f =>
          cases f with
          | op0 j => simp [hf] at h; rw [fetch_op0 (by omega) (hb ▸ hf), h.1]
          | op1 mk => simp [hf] at h
          | op2 mk => simp [hf] at h
      · rw [window_none h1, decode] at h
        cases h

/-- Everything a fetch can bring: an instruction that the decoder reads at PC too (but for a partial opcode at the last
address, whose operand byte does not exist), an opcode byte outside the table, or one of the three faults. -/
theorem fetch_cases (s : State) :
    (∃ i, fetch s = .ok (.instr i) ∧ s.pc.toNat ≤ 255 ∧ i.opcode = s.byte s.pc.toNat ∧
      (Decoded s i ∨ isPartial (s.byte s.pc.toNat) = true)) ∨
    (fetch s = .ok (.unknown (s.byte s.pc.toNat)) ∧ s.pc.toNat ≤ 255 ∧ formOf (s.byte s.pc.toNat) = none) ∨
    (fetch s = .error (.memRange s.pc.toNat .opcodeFetch) ∧ 256 ≤ s.pc.toNat) ∨
    (fetch s = .error (.memRange 256 .operandA) ∧ s.pc.toNat = 255 ∧ opClass (s.byte 255) = .defined ∧
      1 ≤ (s.byte 255).toNat / 64) ∨
    (fetch s = .error (.memRange 256 .operandB) ∧ s.pc.toNat = 254 ∧ opClass (s.byte 254) = .defined ∧
      (s.byte 254).toNat / 64 = 2) := by
  have shape : ∀ op : Byte, (∀ i, formOf op = some (.op0 i) → i.opcode = op) ∧
      (∀ mk, formOf op = some (.op1 mk) → (∀ a, (mk a).opcode = op) ∧ op.toNat / 64 = 1) ∧
      (∀ mk, formOf op = some (.op2 mk) → (∀ a b, (mk a b).opcode = op) ∧ op.toNat / 64 = 2 ∧
        isPartial op = false) := by
    intro op
    have back : op = BitVec.ofNat 8 op.toNat := by simp
    refine ⟨fun i h => ?_, fun mk h => ?_, fun mk h => ?_⟩ <;> unfold formOf at h <;> split at h <;>
      first
      | (cases h; done)
      | (next e =>
          rw [e] at back
          cases h
          rw [back]
          first | rfl | exact ⟨fun _ => rfl, by decide⟩ | exact ⟨fun _ _ => rfl, by decide, by decide⟩)
  have cls : ∀ op f, formOf op = some f → isPartial op = false → opClass op = .defined := by
    intro op f h hp
    simp [opClass, h, hp]
  by_cases hpc : 256 ≤ s.pc.toNat
  · exact .inr (.inr (.inl ⟨fetch_beyond hpc, hpc⟩))
  obtain ⟨s0, s1, s2⟩ := shape (s.byte s.pc.toNat)
  cases hf : formOf (s.byte s.pc.toNat) with
  | none => exact .inr (.inl ⟨fetch_unknown (by omega) hf, by omega, rfl⟩)
  | some f =>
    cases f with
    | op0 i =>
      refine .inl ⟨i, fetch_op0 (by omega) hf, by omega, s0 i hf, .inl ?_⟩
      rcases Nat.lt_or_ge s.pc.toNat 254 with h | h
      · exact ⟨_, by rw [window_three (by omega), decode, hf]⟩
      · rcases Nat.lt_or_ge s.pc.toNat 255 with h' | h'
        · have e : s.pc.toNat = 254 := by omega
          rw [e] at hf
          exact ⟨_, by rw [window_two e, decode, hf]⟩
        · have e : s.pc.toNat = 255 := by omega
          rw [e] at hf
          exact ⟨_, by rw [window_one e, decode, hf]⟩
    | op1 mk =>
      rcases Nat.lt_or_ge s.pc.toNat 254 with h | h
      · exact .inl ⟨_, fetch_op1 (by omega) hf, by omega, (s1 mk hf).1 _,
          .inl ⟨_, by rw [window_three (by omega), decode, hf]⟩⟩
      · rcases Nat.lt_or_ge s.pc.toNat 255 with h' | h'
        · have e : s.pc.toNat = 254 := by omega
          refine .inl ⟨_, fetch_op1 (by omega) hf, by omega, (s1 mk hf).1 _, .inl ?_⟩
          rw [e] at hf ⊢
          exact ⟨_, by rw [window_two e, decode, hf]⟩
        · have e : s.pc.toNat = 255 := by omega
          cases hp : isPartial (s.byte s.pc.toNat) with
          | true => exact .inl ⟨_, fetch_op1_partial (by omega) hf hp, by omega, (s1 mk hf).1 _, .inr rfl⟩
          | false =>
            have hq := (s1 mk hf).2
            rw [e] at hf hp hq
            exact .inr (.inr (.inr (.inl ⟨fetch_op1_beyond e hf hp, e, cls _ _ hf hp, by omega⟩)))
    | op2 mk =>
      obtain ⟨ho, hl, hp⟩ := s2 mk hf
      rcases Nat.lt_or_ge s.pc.toNat 254 with h | h
      · exact .inl ⟨_, fetch_op2 (by omega) hf, by omega, ho _ _,
          .inl ⟨_, by rw [window_three (by omega), decode, hf]⟩⟩
      · rcases Nat.lt_or_ge s.pc.toNat 255 with h' | h'
        · have e : s.pc.toNat = 254 := by omega
          rw [e] at hf hp hl
          exact .inr (.inr (.inr (.inr ⟨fetch_op2_noB e hf, e, cls _ _ hf hp, hl⟩)))
        · have e : s.pc.toNat = 255 := by omega
          rw [e] at hf hp hl
          exact .inr (.inr (.inr (.inl ⟨fetch_op2_noA e hf, e, cls _ _ hf hp, by omega⟩)))

end Sys2Proof.Machine
end

