-- ==== Sys2Proof/Laws/Exec.lean ====
section
/-! SUPPORT. Everything an instruction can do, said once: `Effect s i o` lists the outcomes `o` of an instruction `i` in a
state `s`, and `exec_effect` says that its meaning has one of them. -/

namespace Sys2Proof.Machine

/-- The outcomes of an instruction by shape, guards included. -/
inductive Effect (s : State) : Instr → Host.Outcome State Fault Refusal → Prop
  /-- Only the advance: NOP and a conditional jump not taken. -/
  | pass (i : Instr) (hc : setsPc i s = false) : Effect s i (.next (advance i.opcode s))
  /-- One byte stored, then the advance: the storing ALU instructions, LDI, LD and ST. -/
  | store (i : Instr) (a : Byte) (v : Byte) (hc : setsPc i s = false) :
      Effect s i (.next (advance i.opcode (s.setMem (s.mem.set a.toNat v))))
  | cmp (ra rb : Byte) :
      Effect s (.cmp ra rb) (.next (advance Opcode.cmp (s.setFl (compareFlags (s.slot ra) (s.slot rb)))))
  | prn (ra : Byte) : Effect s (.prn ra) (.next (advance Opcode.prn (s.emit (s.slot ra))))
  | hlt : Effect s .hlt (.next (advance Opcode.hlt (s.setStatus .halted)))
  | push (ra : Byte) (h : s.sp ≠ 0x00) : Effect s (.push ra)
      (.next (advance Opcode.push ((s.setSp (s.sp - 1)).setMem (s.mem.set (s.sp - 1).toNat (s.slot ra)))))
  | pop (ra : Byte) (h : s.sp ≠ 0xFF) : Effect s (.pop ra)
      (.next (advance Opcode.pop ((s.setSp (s.sp + 1)).setMem (s.mem.set ra.toNat (s.byte s.sp.toNat)))))
  /-- The target is read from the state after the push. -/
  | call (ra : Byte) (t : State) (h : s.sp ≠ 0x00)
      (ht : t = (s.setSp (s.sp - 1)).setMem (s.mem.set (s.sp - 1).toNat (trunc8 ((s.pc.toNat : Int) + 2)))) :
      Effect s (.call ra) (.next (jumpTo (t.slot ra) t))
  | ret (h : s.sp ≠ 0xFF) : Effect s .ret (.next (jumpTo (s.byte s.sp.toNat) (s.setSp (s.sp + 1))))
  /-- A jump taken. -/
  | jump (i : Instr) (ra : Byte) (hi : i ∈ [Instr.jmp ra, .jeq ra, .jne ra, .jlt ra, .jgt ra])
      (hc : setsPc i s = true) : Effect s i (.next (jumpTo (s.slot ra) s))
  | divideByZero (i : Instr) (ra rb : Byte) (hi : i = .div ra rb ∨ i = .mod ra rb) (h : s.slot rb = 0) :
      Effect s i (.next (raise (.divideByZero s.pc) s))
  | stackBottom (i : Instr) (ra : Byte) (hi : i = .push ra ∨ i = .call ra) (h : s.sp = 0x00) :
      Effect s i (.next (raise (.stackRange (-1)) s))
  | stackTop (i : Instr) (ra : Byte) (hi : i = .pop ra ∨ i = .ret) (h : s.sp = 0xFF) :
      Effect s i (.next (raise (.stackRange 256) s))
  | refused (i : Instr) (hp : isPartial i.opcode = true) :
      Effect s i (.refused (.partialOpcode i.opcode (s.setStatus (.refused i.opcode))))

/-- A conditional jump passes or jumps. -/
theorem effect_of_jumpIf (s : State) (i : Instr) (op ra : Byte) (cond : Bool) (ho : i.opcode = op)
    (hi : i ∈ [Instr.jmp ra, .jeq ra, .jne ra, .jlt ra, .jgt ra]) (hc : setsPc i s = cond) :
    Effect s i (jumpIf op cond ra s) := by
  cases cond with
  | true => rw [jumpIf_taken]; exact .jump i ra hi hc
  | false => rw [jumpIf_notTaken, ← ho]; exact .pass i hc

/-- A division stores or faults. -/
theorem effect_of_aluDivide (s : State) (i : Instr) (op ra rb : Byte) (f : Byte → Byte → Int) (ho : i.opcode = op)
    (hi : i = .div ra rb ∨ i = .mod ra rb) : Effect s i (aluDivide op f ra rb s) := by
  by_cases h : s.slot rb = 0
  · rw [aluDivide_zero s op f ra rb h]; exact .divideByZero i ra rb hi h
  · rw [aluDivide_next s op f ra rb h, ← ho]
    exact .store i ra _ (by rcases hi with rfl | rfl <;> rfl)

/-- The meaning of every instruction has one of the effects. -/
theorem exec_effect (i : Instr) (s : State) : Effect s i (exec i s) := by
  cases i with
  | nop => exact .pass .nop rfl
  | hlt => exact .hlt
  | ret =>
    by_cases h : s.sp = 0xFF
    · simpa [exec, execRet, pop_full s h] using Effect.stackTop .ret 0 (.inr rfl) h
    · simpa [exec, execRet, pop_next s h] using Effect.ret h
  | iret => exact .refused .iret rfl
  | pra a => exact .refused (.pra a) rfl
  | prn ra => simpa [exec, execPrn] using Effect.prn ra
  | call ra =>
    by_cases h : s.sp = 0x00
    · simpa [exec, execCall, push_empty s _ h] using Effect.stackBottom (.call ra) ra (.inr rfl) h
    · simpa only [exec, execCall, push_next s _ h, except_ok_bind, regRead_eq, except_pure, complete_ok]
        using Effect.call ra _ h rfl
  | int a => exact .refused (.int a) rfl
  | pop ra =>
    by_cases h : s.sp = 0xFF
    · simpa [exec, execPop, pop_full s h] using Effect.stackTop (.pop ra) ra (.inl rfl) h
    · simpa [exec, execPop, pop_next s h] using Effect.pop ra h
  | push ra =>
    by_cases h : s.sp = 0x00
    · simpa [exec, execPush, push_empty s _ h] using Effect.stackBottom (.push ra) ra (.inl rfl) h
    · simpa [exec, execPush, push_next s _ h] using Effect.push ra h
  | jmp ra => exact effect_of_jumpIf s _ _ ra _ rfl (by simp) rfl
  | jeq ra => exact effect_of_jumpIf s _ _ ra _ rfl (by simp) rfl
  | jne ra => exact effect_of_jumpIf s _ _ ra _ rfl (by simp) rfl
  | jlt ra => exact effect_of_jumpIf s _ _ ra _ rfl (by simp) rfl
  | jgt ra => exact effect_of_jumpIf s _ _ ra _ rfl (by simp) rfl
  | not ra => rw [exec, execNot, aluUnary_next]; exact .store (.not ra) ra _ rfl
  | inc ra => rw [exec, execInc, aluUnary_next]; exact .store (.inc ra) ra _ rfl
  | dec ra => rw [exec, execDec, aluUnary_next]; exact .store (.dec ra) ra _ rfl
  | ld ra rb => simpa [exec, execLd, Instr.opcode] using Effect.store (.ld ra rb) ra (s.slot (s.slot rb)) rfl
  | ldi ra imm => simpa [exec, execLdi, immediate, Instr.opcode] using Effect.store (.ldi ra imm) ra imm rfl
  | st ra rb => simpa [exec, execSt, Instr.opcode] using Effect.store (.st ra rb) (s.slot ra) (s.slot rb) rfl
  | cmp ra rb => simpa [exec, execCmp] using Effect.cmp ra rb
  | add ra rb => rw [exec, execAdd, aluBinary_next]; exact .store (.add ra rb) ra _ rfl
  | sub ra rb => rw [exec, execSub, aluBinary_next]; exact .store (.sub ra rb) ra _ rfl
  | mul ra rb => rw [exec, execMul, aluBinary_next]; exact .store (.mul ra rb) ra _ rfl
  | div ra rb => exact effect_of_aluDivide s _ _ ra rb _ rfl (.inl rfl)
  | mod ra rb => exact effect_of_aluDivide s _ _ ra rb _ rfl (.inr rfl)
  | or ra rb => rw [exec, execOr, aluBinary_next]; exact .store (.or ra rb) ra _ rfl
  | xor ra rb => rw [exec, execXor, aluBinary_next]; exact .store (.xor ra rb) ra _ rfl
  | and ra rb => rw [exec, execAnd, aluBinary_next]; exact .store (.and ra rb) ra _ rfl

end Sys2Proof.Machine
end

