-- ==== Sys2Proof/WellFormed.lean ====
section
/-! DEFINITION. What is well formed. An instruction term holds whole bytes and "every operand byte value 0 to 255 is
accepted" (spec 30_encoding.md rule R55), so no term of `Instr` is ill formed; the checks that can refuse something are
those on the bytes that are to be one instruction of the defined formats (R50, R52). -/

namespace Sys2Proof

/-- Every operand byte is accepted (R53, R55), so each arm is `true`; one arm per shape of operands. -/
def Instr.wf : Instr → Bool
  | .nop | .hlt | .ret | .iret => true
  | .pra _ | .prn _ | .call _ | .int _ | .pop _ | .push _ | .jmp _ | .jeq _ | .jne _ | .jlt _ | .jgt _ | .not _
  | .inc _ | .dec _ => true
  | .ld _ _ | .ldi _ _ | .st _ _ | .cmp _ _ | .add _ _ | .sub _ _ | .mul _ _ | .div _ _ | .mod _ _ | .or _ _
  | .xor _ _ | .and _ _ => true

/-- The bytes are one instruction of a format of rule R50: (1) there is an opcode byte; (2) its bits 7:6 are not 0b11,
which no format has; (3) exactly as many operand bytes follow as bits 7:6 say. -/
def bytesWf : List Byte → Bool
  | [] => false
  | op :: operands => decide (op.toNat / 64 ≤ 2) && decide (operands.length = op.toNat / 64)

end Sys2Proof
end

