-- ==== Sys2Proof/Laws/PerInstr.lean ====
section
/-! SUPPORT. What holds of every instruction as syntax, one lemma per constructor: its encoding is well formed and as long
as its opcode's bits 7:6 say (spec 30_encoding.md rule R52: "agrees with the operand count ... checked for all 30 rows"). -/

namespace Sys2Proof.Laws.EncodedLength

/-- The bytes of an instruction are well formed, and their number is `1 + opcode[7:6]`. -/
def Statement (i : Instr) : Prop := bytesWf (encode i) = true ∧ (encode i).length = instrLen i.opcode

theorem nop : Statement (.nop) := by
  simp [Statement, bytesWf, encode, Instr.opcode, Instr.operands, instrLen, Opcode.nop]
theorem hlt : Statement (.hlt) := by
  simp [Statement, bytesWf, encode, Instr.opcode, Instr.operands, instrLen, Opcode.hlt]
theorem ret : Statement (.ret) := by
  simp [Statement, bytesWf, encode, Instr.opcode, Instr.operands, instrLen, Opcode.ret]
theorem iret : Statement (.iret) := by
  simp [Statement, bytesWf, encode, Instr.opcode, Instr.operands, instrLen, Opcode.iret]
theorem pra (a : Byte) : Statement (.pra a) := by
  simp [Statement, bytesWf, encode, Instr.opcode, Instr.operands, instrLen, Opcode.pra]
theorem prn (ra : Byte) : Statement (.prn ra) := by
  simp [Statement, bytesWf, encode, Instr.opcode, Instr.operands, instrLen, Opcode.prn]
theorem call (ra : Byte) : Statement (.call ra) := by
  simp [Statement, bytesWf, encode, Instr.opcode, Instr.operands, instrLen, Opcode.call]
theorem int (a : Byte) : Statement (.int a) := by
  simp [Statement, bytesWf, encode, Instr.opcode, Instr.operands, instrLen, Opcode.int]
theorem pop (ra : Byte) : Statement (.pop ra) := by
  simp [Statement, bytesWf, encode, Instr.opcode, Instr.operands, instrLen, Opcode.pop]
theorem push (ra : Byte) : Statement (.push ra) := by
  simp [Statement, bytesWf, encode, Instr.opcode, Instr.operands, instrLen, Opcode.push]
theorem jmp (ra : Byte) : Statement (.jmp ra) := by
  simp [Statement, bytesWf, encode, Instr.opcode, Instr.operands, instrLen, Opcode.jmp]
theorem jeq (ra : Byte) : Statement (.jeq ra) := by
  simp [Statement, bytesWf, encode, Instr.opcode, Instr.operands, instrLen, Opcode.jeq]
theorem jne (ra : Byte) : Statement (.jne ra) := by
  simp [Statement, bytesWf, encode, Instr.opcode, Instr.operands, instrLen, Opcode.jne]
theorem jlt (ra : Byte) : Statement (.jlt ra) := by
  simp [Statement, bytesWf, encode, Instr.opcode, Instr.operands, instrLen, Opcode.jlt]
theorem jgt (ra : Byte) : Statement (.jgt ra) := by
  simp [Statement, bytesWf, encode, Instr.opcode, Instr.operands, instrLen, Opcode.jgt]
theorem not (ra : Byte) : Statement (.not ra) := by
  simp [Statement, bytesWf, encode, Instr.opcode, Instr.operands, instrLen, Opcode.not]
theorem inc (ra : Byte) : Statement (.inc ra) := by
  simp [Statement, bytesWf, encode, Instr.opcode, Instr.operands, instrLen, Opcode.inc]
theorem dec (ra : Byte) : Statement (.dec ra) := by
  simp [Statement, bytesWf, encode, Instr.opcode, Instr.operands, instrLen, Opcode.dec]
theorem ld (ra rb : Byte) : Statement (.ld ra rb) := by
  simp [Statement, bytesWf, encode, Instr.opcode, Instr.operands, instrLen, Opcode.ld]
theorem ldi (ra imm : Byte) : Statement (.ldi ra imm) := by
  simp [Statement, bytesWf, encode, Instr.opcode, Instr.operands, instrLen, Opcode.ldi]
theorem st (ra rb : Byte) : Statement (.st ra rb) := by
  simp [Statement, bytesWf, encode, Instr.opcode, Instr.operands, instrLen, Opcode.st]
theorem cmp (ra rb : Byte) : Statement (.cmp ra rb) := by
  simp [Statement, bytesWf, encode, Instr.opcode, Instr.operands, instrLen, Opcode.cmp]
theorem add (ra rb : Byte) : Statement (.add ra rb) := by
  simp [Statement, bytesWf, encode, Instr.opcode, Instr.operands, instrLen, Opcode.add]
theorem sub (ra rb : Byte) : Statement (.sub ra rb) := by
  simp [Statement, bytesWf, encode, Instr.opcode, Instr.operands, instrLen, Opcode.sub]
theorem mul (ra rb : Byte) : Statement (.mul ra rb) := by
  simp [Statement, bytesWf, encode, Instr.opcode, Instr.operands, instrLen, Opcode.mul]
theorem div (ra rb : Byte) : Statement (.div ra rb) := by
  simp [Statement, bytesWf, encode, Instr.opcode, Instr.operands, instrLen, Opcode.div]
theorem mod (ra rb : Byte) : Statement (.mod ra rb) := by
  simp [Statement, bytesWf, encode, Instr.opcode, Instr.operands, instrLen, Opcode.mod]
theorem or (ra rb : Byte) : Statement (.or ra rb) := by
  simp [Statement, bytesWf, encode, Instr.opcode, Instr.operands, instrLen, Opcode.or]
theorem xor (ra rb : Byte) : Statement (.xor ra rb) := by
  simp [Statement, bytesWf, encode, Instr.opcode, Instr.operands, instrLen, Opcode.xor]
theorem and (ra rb : Byte) : Statement (.and ra rb) := by
  simp [Statement, bytesWf, encode, Instr.opcode, Instr.operands, instrLen, Opcode.and]

end Sys2Proof.Laws.EncodedLength
end

