-- ==== Sys2Proof/Laws/Step.lean ====
section
/-! SUPPORT. Everything a step can do, said once, and the arithmetic of the program counter. -/

namespace Sys2Proof.Machine

variable {s t : State}

/-- A partial opcode's meaning never answers a next state. -/
theorem exec_partial_not_next {i : Instr} (h : isPartial i.opcode = true) : exec i s ≠ .next t := by
  have hi : (∃ a, i = .int a) ∨ i = .iret ∨ ∃ a, i = .pra a := by
    cases i <;> first
      | exact .inl ⟨_, rfl⟩
      | exact .inr (.inl rfl)
      | exact .inr (.inr ⟨_, rfl⟩)
      | exact nomatch (show false = true from h)
  rcases hi with ⟨a, rfl⟩ | rfl | ⟨a, rfl⟩ <;> exact fun h => nomatch h

/-- A step that answers a next state ran from `running` and did one of three things: it ran the instruction the decoder
reads at PC, with one of its effects; or it logged an unknown opcode and skipped it; or its fetch raised `MemRange`. -/
theorem step_cases (h : step s = .next t) :
    s.status = .running ∧
    ((∃ i, Decoded s i ∧ s.pc.toNat ≤ 255 ∧ i.opcode = s.byte s.pc.toNat ∧ exec i s = .next t ∧
        Effect s i (.next t)) ∨
      (s.pc.toNat ≤ 255 ∧ formOf (s.byte s.pc.toNat) = none ∧
        t = advance (s.byte s.pc.toNat) (s.log (.unknownOpcode s.pc (s.byte s.pc.toNat)))) ∨
      (∃ c, fetch s = .error c ∧ t = raise c s ∧ FaultCondition s c ∧ ∀ i, ¬ Decoded s i)) := by
  have hr := step_next_running h
  refine ⟨hr, ?_⟩
  rw [step_running s hr] at h
  have noDecode : ∀ c, fetch s = .error c → ∀ i, ¬ Decoded s i := by
    intro c hc i hd
    rw [fetch_of_decoded hd] at hc
    cases hc
  rcases fetch_cases s with ⟨i, hf, hp, ho, hd⟩ | ⟨hf, hp, hn⟩ | ⟨hf, hp⟩ | ⟨hf, hp⟩ | ⟨hf, hp⟩ <;>
    rw [hf] at h
  · have e := exec_effect i s
    simp only at h
    rcases hd with hd | hd
    · exact .inl ⟨i, hd, hp, ho, h, h ▸ e⟩
    · exact absurd h (exec_partial_not_next (ho ▸ hd))
  · cases h
    exact .inr (.inl ⟨hp, hn, rfl⟩)
  · cases h
    exact .inr (.inr ⟨_, hf, rfl, ⟨rfl, hp⟩, noDecode _ hf⟩)
  · cases h
    exact .inr (.inr ⟨_, hf, rfl, ⟨rfl, hp⟩, noDecode _ hf⟩)
  · cases h
    exact .inr (.inr ⟨_, hf, rfl, ⟨rfl, hp⟩, noDecode _ hf⟩)

/-- The decoder reads at most one instruction at PC. -/
theorem decoded_unique {i j : Instr} (hi : Decoded s i) (hj : Decoded s j) : i = j := by
  have h := fetch_of_decoded hi
  rw [fetch_of_decoded hj] at h
  cases h
  rfl

/-- A length is 1 to 4. -/
theorem instrLen_bounds (op : Byte) : 1 ≤ instrLen op ∧ instrLen op ≤ 4 := by
  have := op.isLt
  simp only [instrLen]
  omega

/-- The advance in plain numbers: it does not wrap where an opcode byte can be fetched. -/
theorem advance_pc_toNat (op : Byte) (h : s.pc.toNat ≤ 255) :
    (advance op s).pc.toNat = s.pc.toNat + instrLen op := by
  have := instrLen_bounds op
  rw [advance_pc, BitVec.toNat_add, BitVec.toNat_ofNat]
  omega

/-- An explicit set in plain numbers. -/
theorem jumpTo_pc_toNat (v : Byte) : (jumpTo v s).pc.toNat = v.toNat := by
  have := v.isLt
  rw [jumpTo_pc, BitVec.toNat_setWidth]
  omega

end Sys2Proof.Machine
end

