-- ==== Sys2Proof/Machine/Assembly.lean ====
section
/-! DEFINITION. The assembly text of an instruction and the bytes of a program (spec 30_encoding.md rules R59, R60). -/

namespace Sys2Proof.Machine

/-- A register operand in assembly text: `R` and the operand byte in decimal, above 7 too (R59). -/
def regText (i : Byte) : String := "R" ++ toString i.toNat

/-- The assembly text of an instruction: the mnemonic, a space, the operands separated by a comma (R59). -/
def asmText : Instr → String
  | .nop => "NOP"
  | .hlt => "HLT"
  | .ret => "RET"
  | .iret => "IRET"
  | .pra a => "PRA " ++ regText a
  | .prn ra => "PRN " ++ regText ra
  | .call ra => "CALL " ++ regText ra
  | .int a => "INT " ++ regText a
  | .pop ra => "POP " ++ regText ra
  | .push ra => "PUSH " ++ regText ra
  | .jmp ra => "JMP " ++ regText ra
  | .jeq ra => "JEQ " ++ regText ra
  | .jne ra => "JNE " ++ regText ra
  | .jlt ra => "JLT " ++ regText ra
  | .jgt ra => "JGT " ++ regText ra
  | .not ra => "NOT " ++ regText ra
  | .inc ra => "INC " ++ regText ra
  | .dec ra => "DEC " ++ regText ra
  | .ld ra rb => "LD " ++ regText ra ++ "," ++ regText rb
  | .ldi ra imm => "LDI " ++ regText ra ++ "," ++ toString imm.toNat
  | .st ra rb => "ST " ++ regText ra ++ "," ++ regText rb
  | .cmp ra rb => "CMP " ++ regText ra ++ "," ++ regText rb
  | .add ra rb => "ADD " ++ regText ra ++ "," ++ regText rb
  | .sub ra rb => "SUB " ++ regText ra ++ "," ++ regText rb
  | .mul ra rb => "MUL " ++ regText ra ++ "," ++ regText rb
  | .div ra rb => "DIV " ++ regText ra ++ "," ++ regText rb
  | .mod ra rb => "MOD " ++ regText ra ++ "," ++ regText rb
  | .or ra rb => "OR " ++ regText ra ++ "," ++ regText rb
  | .xor ra rb => "XOR " ++ regText ra ++ "," ++ regText rb
  | .and ra rb => "AND " ++ regText ra ++ "," ++ regText rb

/-- The bytes of a sequence of instructions, the first at the lowest address: a program is a list of bytes (R60). -/
def assemble (is : List Instr) : List Byte := is.flatMap encode

end Sys2Proof.Machine
end

