-- ==== Sys2Proof/Tests/Slice0.lean ====
section
/-! SUPPORT. Tests, each against a word, a vector or an example of the spec (95_test_vectors.md, named V<n> or T<n> here, or
the encoding table of 30_encoding.md rule R56), and a witness for the hypotheses of every statement that has some. -/

namespace Sys2Proof.Machine.Test

/-- A state as section 2 of 95_test_vectors.md starts from: reset, with PC and the listed bytes. -/
def start (pc : PcWord) (bytes : List Byte) (more : List (Nat × Byte)) : State :=
  more.foldl (fun s c => s.setMem (s.mem.set c.1 c.2)) ((State.reset.setPc pc).setMem (Memory.setAll [] pc.toNat bytes))

/-- What a step leaves, seen through `f`; nothing where there is no next state. -/
def after {α : Type} (s : State) (f : State → α) : Option α :=
  match step s with
  | .next t => some (f t)
  | .fault _ => none
  | .refused _ => none

/-! Well-formedness: one ill-formed input for each check. -/

theorem test_wf_refuses_no_bytes : bytesWf [] = false := by decide
theorem test_wf_refuses_top_bits_three : bytesWf [0xC0, 1, 2, 3] = false := by decide
theorem test_wf_refuses_missing_operand : bytesWf [168, 2] = false := by decide
theorem test_wf_refuses_extra_operand : bytesWf [120, 2, 3] = false := by decide

/-! Decoding: the word of every row of rule R56, its opcode byte written bit by bit. -/

theorem test_decode_nop : decode [0b00000000#8, 0xAA#8] = .ok (.nop, [0xAA]) := by rfl
theorem test_decode_hlt : decode [0b00000001#8, 0xAA#8] = .ok (.hlt, [0xAA]) := by rfl
theorem test_decode_ret : decode [0b00001001#8, 0xAA#8] = .ok (.ret, [0xAA]) := by rfl
theorem test_decode_iret : decode [0b00001011#8, 0xAA#8] = .ok (.iret, [0xAA]) := by rfl
theorem test_decode_pra : decode [0b01000010#8, 0x02#8, 0xAA#8] = .ok (.pra 2, [0xAA]) := by rfl
theorem test_decode_prn : decode [0b01000011#8, 0x02#8, 0xAA#8] = .ok (.prn 2, [0xAA]) := by rfl
theorem test_decode_call : decode [0b01001000#8, 0x02#8, 0xAA#8] = .ok (.call 2, [0xAA]) := by rfl
theorem test_decode_int : decode [0b01001010#8, 0x02#8, 0xAA#8] = .ok (.int 2, [0xAA]) := by rfl
theorem test_decode_pop : decode [0b01001100#8, 0x02#8, 0xAA#8] = .ok (.pop 2, [0xAA]) := by rfl
theorem test_decode_push : decode [0b01001101#8, 0x02#8, 0xAA#8] = .ok (.push 2, [0xAA]) := by rfl
theorem test_decode_jmp : decode [0b01010000#8, 0x02#8, 0xAA#8] = .ok (.jmp 2, [0xAA]) := by rfl
theorem test_decode_jeq : decode [0b01010001#8, 0x02#8, 0xAA#8] = .ok (.jeq 2, [0xAA]) := by rfl
theorem test_decode_jne : decode [0b01010010#8, 0x02#8, 0xAA#8] = .ok (.jne 2, [0xAA]) := by rfl
theorem test_decode_jlt : decode [0b01010011#8, 0x02#8, 0xAA#8] = .ok (.jlt 2, [0xAA]) := by rfl
theorem test_decode_jgt : decode [0b01010100#8, 0x02#8, 0xAA#8] = .ok (.jgt 2, [0xAA]) := by rfl
theorem test_decode_not : decode [0b01110000#8, 0x02#8, 0xAA#8] = .ok (.not 2, [0xAA]) := by rfl
theorem test_decode_inc : decode [0b01111000#8, 0x02#8, 0xAA#8] = .ok (.inc 2, [0xAA]) := by rfl
theorem test_decode_dec : decode [0b01111001#8, 0x02#8, 0xAA#8] = .ok (.dec 2, [0xAA]) := by rfl
theorem test_decode_ld : decode [0b10011000#8, 0x02#8, 0x03#8, 0xAA#8] = .ok (.ld 2 3, [0xAA]) := by rfl
theorem test_decode_ldi : decode [0b10011001#8, 0x02#8, 0x03#8, 0xAA#8] = .ok (.ldi 2 3, [0xAA]) := by rfl
theorem test_decode_st : decode [0b10011010#8, 0x02#8, 0x03#8, 0xAA#8] = .ok (.st 2 3, [0xAA]) := by rfl
theorem test_decode_cmp : decode [0b10100000#8, 0x02#8, 0x03#8, 0xAA#8] = .ok (.cmp 2 3, [0xAA]) := by rfl
theorem test_decode_add : decode [0b10101000#8, 0x02#8, 0x03#8, 0xAA#8] = .ok (.add 2 3, [0xAA]) := by rfl
theorem test_decode_sub : decode [0b10101001#8, 0x02#8, 0x03#8, 0xAA#8] = .ok (.sub 2 3, [0xAA]) := by rfl
theorem test_decode_mul : decode [0b10101010#8, 0x02#8, 0x03#8, 0xAA#8] = .ok (.mul 2 3, [0xAA]) := by rfl
theorem test_decode_div : decode [0b10101011#8, 0x02#8, 0x03#8, 0xAA#8] = .ok (.div 2 3, [0xAA]) := by rfl
theorem test_decode_mod : decode [0b10101100#8, 0x02#8, 0x03#8, 0xAA#8] = .ok (.mod 2 3, [0xAA]) := by rfl
theorem test_decode_or : decode [0b10110001#8, 0x02#8, 0x03#8, 0xAA#8] = .ok (.or 2 3, [0xAA]) := by rfl
theorem test_decode_xor : decode [0b10110010#8, 0x02#8, 0x03#8, 0xAA#8] = .ok (.xor 2 3, [0xAA]) := by rfl
theorem test_decode_and : decode [0b10110011#8, 0x02#8, 0x03#8, 0xAA#8] = .ok (.and 2 3, [0xAA]) := by rfl
theorem test_decode_unknown : decode [0x85#8, 1, 1] = .error (.unknownOpcode 0x85) := by rfl
theorem test_decode_truncated : decode [0xA8#8, 1] = .error (.missingOperandB 0xA8) := by rfl

/-! CA1's scenario program (T6) is the bytes of its gloss and HLT (90_conflicts.md C10). -/

theorem test_assemble_scenario :
    assemble [.ldi 0 8, .ldi 1 9, .add 0 1, .prn 0, .hlt] = [153, 0, 8, 153, 1, 9, 168, 0, 1, 67, 0, 1] := by decide
theorem test_asm_text : asmText (.ldi 0 8) = "LDI R0,8" := by decide

/-! One step. -/

theorem test_add_V1 : after (start 20 [168, 2, 3] [(2, 250), (3, 10)]) (fun t => (t.byte 2, t.byte 3, t.pc)) = some (4, 10, 23) := by decide
theorem test_add_same_V7 : after (start 20 [168, 2, 2] [(2, 200)]) (fun t => (t.byte 2, t.pc)) = some (144, 23) := by decide
theorem test_sub_V9 : after (start 20 [169, 2, 3] [(2, 3), (3, 5)]) (fun t => (t.byte 2, t.pc)) = some (254, 23) := by decide
theorem test_sub_V12 : after (start 20 [169, 2, 3] [(2, 0), (3, 255)]) (fun t => (t.byte 2, t.fl)) = some (1, 0) := by decide
theorem test_mul_V17 : after (start 20 [170, 2, 3] [(2, 255), (3, 255)]) (fun t => (t.byte 2, t.pc)) = some (1, 23) := by decide
theorem test_div_V25 : after (start 20 [171, 2, 3] [(2, 255), (3, 2)]) (fun t => (t.byte 2, t.pc)) = some (127, 23) := by decide
theorem test_div_zero_V29 : after (start 20 [171, 2, 3] []) (fun t => (t.status, t.pc)) = some (.faulted (.divideByZero 20), 20) := by decide
theorem test_mod_V38 : after (start 20 [172, 2, 3] [(2, 200), (3, 7)]) (fun t => (t.byte 2, t.pc)) = some (4, 23) := by decide
theorem test_mod_zero_V39 : after (start 20 [172, 2, 3] [(2, 9)]) (fun t => (t.status, t.byte 2, t.pc)) = some (.faulted (.divideByZero 20), 9, 20) := by decide
theorem test_inc_V42 : after (start 20 [120, 2] [(2, 255)]) (fun t => (t.byte 2, t.pc)) = some (0, 22) := by decide
theorem test_dec_V45 : after (start 20 [121, 2] []) (fun t => (t.byte 2, t.pc)) = some (255, 22) := by decide
theorem test_not_V50 : after (start 20 [112, 2] [(2, 165)]) (fun t => (t.byte 2, t.pc)) = some (90, 22) := by decide
theorem test_and_V51 : after (start 20 [179, 2, 3] [(2, 204), (3, 170)]) (fun t => (t.byte 2, t.pc)) = some (136, 23) := by decide
theorem test_or_V54 : after (start 20 [177, 2, 3] [(2, 204), (3, 170)]) (fun t => (t.byte 2, t.pc)) = some (238, 23) := by decide
theorem test_xor_V56 : after (start 20 [178, 2, 3] [(2, 204), (3, 170)]) (fun t => (t.byte 2, t.pc)) = some (102, 23) := by decide
theorem test_cmp_V62 : after (start 20 [160, 2, 3] [(3, 255)]) (fun t => (t.fl, t.pc)) = some (0x04, 23) := by decide
theorem test_cmp_V66 : after ((start 20 [160, 2, 3] [(2, 9), (3, 9)]) |>.setFl 0x04) (fun t => (t.fl, t.pc)) = some (0x01, 23) := by decide
theorem test_ldi_V71 : after (start 20 [153, 7, 1] []) (fun t => (t.byte 7, t.sp, t.pc)) = some (1, 0xF4, 23) := by decide
theorem test_ldi_own_opcode_V73 : after (start 20 [153, 20, 0] []) (fun t => (t.byte 20, t.pc)) = some (0, 23) := by decide
theorem test_ld_V74 : after (start 20 [152, 0, 1] [(1, 128), (128, 77)]) (fun t => (t.byte 0, t.byte 128, t.pc)) = some (77, 77, 23) := by decide
theorem test_ld_V76 : after (start 20 [152, 2, 3] [(3, 3)]) (fun t => (t.byte 2, t.pc)) = some (3, 23) := by decide
theorem test_st_V77 : after (start 20 [154, 1, 0] [(0, 42), (1, 128)]) (fun t => (t.byte 128, t.byte 0, t.pc)) = some (42, 42, 23) := by decide
theorem test_st_V78 : after (start 20 [154, 1, 0] [(0, 42), (1, 3)]) (fun t => (t.byte 3, t.byte 1, t.pc)) = some (42, 3, 23) := by decide
theorem test_prn_V83 : after ((start 20 [67, 7] [(7, 66)]) |>.setSp 0xF0) (fun t => (t.out, t.pc)) = some ([66], 22) := by decide
theorem test_push_V84 : after (start 20 [77, 2] [(2, 21)]) (fun t => (t.byte 0xF3, t.sp, t.pc)) = some (21, 0xF3, 22) := by decide
theorem test_push_V87 : after ((start 20 [77, 2] [(2, 99)]) |>.setSp 0x00) (fun t => (t.status, t.sp, t.pc)) = some (.faulted (.stackRange (-1)), 0x00, 20) := by decide
theorem test_pop_V91 : after ((start 20 [76, 2] [(254, 77)]) |>.setSp 0xFE) (fun t => (t.byte 2, t.sp, t.pc)) = some (77, 0xFF, 22) := by decide
theorem test_pop_V92 : after ((start 20 [76, 2] [(2, 5), (255, 77)]) |>.setSp 0xFF) (fun t => (t.status, t.byte 2, t.pc)) = some (.faulted (.stackRange 256), 5, 20) := by decide
theorem test_call_V98 : after (start 254 [72, 2] [(2, 40), (243, 99)]) (fun t => (t.byte 0xF3, t.pc, t.sp)) = some (0, 40, 0xF3) := by decide
theorem test_call_V100 : after ((start 20 [72, 5] [(5, 30)]) |>.setSp 0x06) (fun t => (t.byte 5, t.pc, t.sp)) = some (22, 22, 0x05) := by decide
theorem test_ret_V102 : after ((start 20 [9] [(242, 18)]) |>.setSp 0xF2) (fun t => (t.pc, t.sp)) = some (18, 0xF3) := by decide
theorem test_ret_V104 : after ((start 20 [9] [(255, 7)]) |>.setSp 0xFF) (fun t => (t.status, t.pc)) = some (.faulted (.stackRange 256), 20) := by decide
theorem test_jmp_V107 : after (start 20 [80, 2] [(2, 50)]) (fun t => t.pc) = some 50 := by decide
theorem test_jeq_V111 : after ((start 20 [81, 2] [(2, 50)]) |>.setFl 0x01) (fun t => t.pc) = some 50 := by decide
theorem test_jeq_V112 : after ((start 20 [81, 2] [(2, 50)]) |>.setFl 0x02) (fun t => t.pc) = some 22 := by decide
theorem test_jne_V114 : after (start 20 [82, 2] [(2, 50)]) (fun t => t.pc) = some 50 := by decide
theorem test_jne_V115 : after ((start 20 [82, 2] [(2, 50)]) |>.setFl 0x01) (fun t => t.pc) = some 22 := by decide
theorem test_jlt_V121 : after ((start 20 [83, 2] [(2, 50)]) |>.setFl 0x04) (fun t => t.pc) = some 50 := by decide
theorem test_jlt_V120 : after ((start 20 [83, 2] [(2, 50)]) |>.setFl 0x02) (fun t => t.pc) = some 22 := by decide
theorem test_jgt_V124 : after ((start 20 [84, 2] [(2, 50)]) |>.setFl 0x02) (fun t => t.pc) = some 50 := by decide
theorem test_jgt_V125 : after ((start 20 [84, 2] [(2, 50)]) |>.setFl 0x04) (fun t => t.pc) = some 22 := by decide
theorem test_nop_V129 : after (start 255 [0] []) (fun t => (t.pc, t.status)) = some (256, .running) := by decide
theorem test_hlt_V128 : after (start 255 [1] []) (fun t => (t.pc, t.status)) = some (256, .halted) := by decide
theorem test_unknown_V135 : after (start 255 [255] []) (fun t => (t.pc, t.diag)) = some (259, [.unknownOpcode 255 255]) := by decide
theorem test_unknown_V132 : after (start 20 [64, 9] []) (fun t => (t.pc, t.diag, t.status)) = some (22, [.unknownOpcode 20 64], .running) := by decide
theorem test_fetch_V130 : after (start 256 [] []) (fun t => (t.status, t.pc)) = some (.faulted (.memRange 256 .opcodeFetch), 256) := by decide
theorem test_prn_V140 : after (start 254 [67, 2] [(2, 99)]) (fun t => (t.out, t.pc)) = some ([99], 256) := by decide
theorem test_fetch_V142 : after (start 254 [153, 2] []) (fun t => (t.status, t.pc)) = some (.faulted (.memRange 256 .operandB), 254) := by decide
theorem test_fetch_V144 : after (start 254 [171, 2] [(2, 9)]) (fun t => t.status) = some (.faulted (.memRange 256 .operandB)) := by decide
theorem test_fetch_V146 : after (start 255 [168] []) (fun t => t.status) = some (.faulted (.memRange 256 .operandA)) := by decide
theorem test_int_V137 : step (start 20 [74, 0] []) =
    .refused (.partialOpcode 74 ((start 20 [74, 0] []).setStatus (.refused 74))) := by rfl
theorem test_iret_V138 : step (start 20 [11] []) =
    .refused (.partialOpcode 11 ((start 20 [11] []).setStatus (.refused 11))) := by rfl
theorem test_pra_V139 : step (start 20 [66, 0] []) =
    .refused (.partialOpcode 66 ((start 20 [66, 0] []).setStatus (.refused 66))) := by rfl
theorem test_pra_at_the_top : step (start 255 [66] []) =
    .refused (.partialOpcode 66 ((start 255 [66] []).setStatus (.refused 66))) := by rfl

/-! The host's words: numbered from the first byte's least significant bit. -/

theorem test_table_word : decodeTableWord 24 0x0302A8 = some (.add 2 3) := by rfl
theorem test_table_word_cut : decodeTableWord 8 0x0302A8 = some (.add 0 0) := by rfl
theorem test_fetch_word :
    after (State.reset.withFetchWord 24 0x090099) (fun t => (t.byte 0, t.pc)) = some (9, 3) := by decide
theorem test_reset_sp : State.reset.sp = 244 := by decide
theorem test_write_unlisted_removes : (Memory.set [(3, 7)] 3 0) = [] := by decide
theorem test_fault_code : faultOut (State.reset.setStatus (.faulted (.stackRange 256))) =
    some (3, .stackRange 256) := by decide

/-! Witnesses: states and operands that meet the hypotheses of the statements, at the boundaries of their ranges. -/

/-- A state with SP at its lowest, a divisor of 0 at 2 and of 5 at 3, and a DIV by it at PC. -/
def sample : State := start 20 [171, 3, 2] [(3, 5), (1, 23)]

theorem witness_canonicalMemory : sample.mem.wf = true ∧ sample.slot 3 ≠ 0 ∧ sample.slot 2 = 0 := by decide
theorem witness_StepKeepsInv : ∃ t, Inv State.reset ∧ step State.reset = .next t :=
  ⟨_, ⟨by decide, by decide, by decide, trivial, by decide⟩, rfl⟩
theorem witness_NoStepUnlessRunning :
    (sample.setStatus .halted).status = .halted ∧
    (sample.setStatus (.faulted (.stackRange 256))).status = .faulted (.stackRange 256) ∧
    (sample.setStatus (.refused 74)).status = .refused 74 := by decide
theorem witness_StepRunsTheDecodedInstruction :
    sample.status = .running ∧ decode (window sample) = .ok (.div 3 2, []) := ⟨rfl, rfl⟩
theorem witness_UnknownOpcodeIsLoggedAndSkipped :
    (start 255 [255] []).status = .running ∧ (start 255 [255] []).pc.toNat ≤ 255 ∧
    (start 255 [255] []).byte (start 255 [255] []).pc.toNat = 255 ∧ opClass 255 = .unknown := by decide
theorem witness_FetchBeyondMemoryFaults_opcode :
    (start 256 [] []).status = .running ∧ 256 ≤ (start 256 [] []).pc.toNat := by decide
theorem witness_FetchBeyondMemoryFaults_operandA :
    (start 255 [67] []).status = .running ∧ (start 255 [67] []).pc.toNat = 255 ∧
    opClass ((start 255 [67] []).byte 255) = .defined ∧ 1 ≤ ((start 255 [67] []).byte 255).toNat / 64 := by decide
theorem witness_FetchBeyondMemoryFaults_operandB :
    (start 254 [153] []).status = .running ∧ (start 254 [153] []).pc.toNat = 254 ∧
    opClass ((start 254 [153] []).byte 254) = .defined ∧ ((start 254 [153] []).byte 254).toNat / 64 = 2 := by decide
theorem witness_FaultsExactlyOnTheTabledConditions :
    sample.status = .running ∧ FaultCondition sample (.divideByZero 20) :=
  ⟨rfl, rfl, 3, 2, .inl ⟨[], rfl⟩, by decide⟩
theorem witness_FaultsExactlyOnTheTabledConditions_stack :
    FaultCondition ((start 20 [77, 2] []).setSp 0x00) (.stackRange (-1)) ∧
    FaultCondition ((start 20 [9] []).setSp 0xFF) (.stackRange 256) :=
  ⟨.inl ⟨rfl, rfl, 2, .inl ⟨_, rfl⟩⟩, .inr ⟨rfl, rfl, .inl ⟨_, rfl⟩⟩⟩
theorem witness_FaultsExactlyOnTheTabledConditions_fetch :
    FaultCondition (start 259 [] []) (.memRange 259 .opcodeFetch) ∧
    FaultCondition (start 255 [67] []) (.memRange 256 .operandA) ∧
    FaultCondition (start 254 [153] []) (.memRange 256 .operandB) :=
  ⟨⟨rfl, by decide⟩, ⟨rfl, rfl, by decide, by decide⟩, ⟨rfl, rfl, by decide, by decide⟩⟩
theorem witness_FaultsArePreciseAndFinal :
    ∃ t, step sample = .next t ∧ t.status = .faulted (.divideByZero 20) := ⟨_, rfl, rfl⟩
theorem witness_FaultsArePreciseAndFinal_noFault : ∀ c, (sample.setStatus .halted).status ≠ .faulted c := nofun
theorem witness_PcAdvanceLaw_set :
    ∃ t, step (start 20 [80, 2] [(2, 50)]) = .next t ∧ t.status = .running ∧
      Decoded (start 20 [80, 2] [(2, 50)]) (.jmp 2) ∧ setsPc (.jmp 2) (start 20 [80, 2] [(2, 50)]) = true :=
  ⟨_, rfl, rfl, ⟨_, rfl⟩, rfl⟩
theorem witness_PcAdvanceLaw_advance :
    ∃ t, step (start 255 [1] []) = .next t ∧ t.status = .halted ∧ Decoded (start 255 [1] []) .hlt ∧
      setsPc .hlt (start 255 [1] []) = false :=
  ⟨_, rfl, rfl, ⟨_, rfl⟩, rfl⟩
theorem witness_PcAdvanceLaw_advance_everyDecoded :
    ∀ i, Decoded (start 255 [255] []) i → setsPc i (start 255 [255] []) = false := by
  rintro i ⟨rest, h⟩
  rw [window_one (by decide), show (start 255 [255] []).byte 255 = 255 from by decide] at h
  exact nomatch (show Except.error (Reject.unknownOpcode 255) = Except.ok (i, rest) from h)
theorem witness_OnlyCmpChangesFlags :
    ∃ t, step (start 20 [160, 2, 3] []) = .next t ∧ t.fl ≠ (start 20 [160, 2, 3] []).fl := ⟨_, rfl, by decide⟩
theorem witness_OnlyStackInstructionsMoveSp :
    ∃ t, step (start 20 [77, 2] []) = .next t ∧ t.sp ≠ (start 20 [77, 2] []).sp := ⟨_, rfl, by decide⟩
theorem witness_StreamsAreAppendOnly : ∃ t, step (start 20 [67, 2] []) = .next t := ⟨_, rfl⟩
theorem witness_OnlyHltHalts : ∃ t, step (start 20 [1] []) = .next t ∧ t.status = .halted := ⟨_, rfl, rfl⟩
theorem witness_LoaderPlacesByteAtItsAddress :
    sample.mem.wf = true ∧ (List.replicate 256 (1 : Byte)).length ≤ 256 := ⟨by decide, Nat.le_of_eq List.length_replicate⟩
theorem witness_LoaderPlacesByteAtItsAddress_tooLong :
    256 < (List.replicate 257 (1 : Byte)).length := Nat.lt_of_lt_of_eq (by decide) List.length_replicate.symm
theorem witness_LoadAndPowerOnMeetInv :
    sample.mem.wf = true ∧ Inv State.reset ∧ ∃ t, loadProgram [1] State.reset = .ok t :=
  ⟨by decide, ⟨by decide, by decide, by decide, trivial, by decide⟩, _, rfl⟩
theorem witness_EveryStateOfARunMeetsInv :
    ∃ t u, sample.mem.wf = true ∧ loadProgram [1] (powerOn sample) = .ok t ∧ drive 1 t = .next u ∧ u.status = .halted :=
  ⟨_, _, by decide, rfl, rfl, rfl⟩
/-- R184: 257 bytes do not fit the store. -/
theorem test_loadProgram_refuses_257_bytes :
    loadProgram (List.replicate 257 1) State.reset = .error (.storeRange 256) :=
  loadProgram_tooLong State.reset witness_LoaderPlacesByteAtItsAddress_tooLong
theorem witness_DecodeAndEncodeAgree : decode [168#8, 2#8, 3#8, 7#8] = .ok (.add 2 3, [7]) := rfl
theorem witness_MemReadInRangeOrFault : (255 : Nat) ≤ 255 ∧ (255 : Nat) < 256 := by decide
theorem witness_StoreIsSeenByTheNextFetch :
    sample.mem.wf = true ∧ sample.pc.toNat ≤ 252 ∧ (sample.slot 1).toNat = sample.pc.toNat + 3 := by decide
theorem witness_OverwrittenOpcodeStillAdvancesByThree :
    let s := start 253 [153, 253, 7] []
    s.status = .running ∧ s.mem.wf = true ∧ s.pc.toNat ≤ 253 ∧ s.byte s.pc.toNat = 153 ∧
      s.byte (s.pc.toNat + 1) = s.pc.setWidth 8 ∧ s.byte (s.pc.toNat + 2) = 7 := by decide
theorem witness_PushWritesBelowSp : sample.mem.wf = true ∧ (sample.setSp 0x01).sp ≠ 0x00 := by decide
theorem witness_PopReadsAtSp : sample.mem.wf = true ∧ (sample.setSp 0xFE).sp ≠ 0xFF := by decide
theorem witness_SpDoesNotWrap : (sample.setSp 0x00).sp = 0x00 ∧ (sample.setSp 0xFF).sp = 0xFF := by decide
theorem witness_CallThenRetReturns :
    let s := start 253 [72, 2] [(2, 40)]
    s.mem.wf = true ∧ s.sp ≠ 0x00 ∧ s.pc.toNat ≤ 253 := by decide
theorem witness_JmpGoesToTheSlotsAddress :
    ((start 20 [80, 2] [(2, 20)]).slot 2).toNat = (start 20 [80, 2] [(2, 20)]).pc.toNat := by decide
theorem witness_PartialOpcodesAreRefused :
    let s := start 255 [66] []
    s.status = .running ∧ s.pc.toNat ≤ 255 ∧ s.byte s.pc.toNat = 66 ∧ (66 : Byte).toNat ∈ [11, 66, 74] := by decide

end Sys2Proof.Machine.Test
end

section
/-! SUPPORT. What each outcome of an instruction leaves in SP, FL, the streams and the run latch, field by field, and
from it which instructions can change each of these in a step (spec 10_state.md rules R13, R14, R18 to R21). -/

namespace Sys2Proof.Machine

variable {s t : State} {i : Instr}

/-! One lemma per field, over the outcomes of `Effect`. -/

/-- FL is kept by every instruction but CMP, which replaces it (R18, R103). -/
theorem Effect.fl_eq_or_cmp (h : Effect s i (.next t)) :
    t.fl = s.fl ∨ ∃ ra rb, i = .cmp ra rb ∧ t.fl = compareFlags (s.slot ra) (s.slot rb) := by
  cases h with
  | cmp ra rb => exact .inr ⟨ra, rb, rfl, rfl⟩
  | call ra u _ hu => subst hu; exact .inl rfl
  | _ => exact .inl rfl

/-- SP is kept, or taken down from a value that is not the lowest by PUSH or CALL, or up from a value that is not the
highest by POP or RET (R13, R14). -/
theorem Effect.sp_eq_or_down_or_up (h : Effect s i (.next t)) :
    t.sp = s.sp ∨
    (s.sp ≠ 0x00 ∧ t.sp = s.sp - 1 ∧ ∃ ra, i = .push ra ∨ i = .call ra) ∨
    (s.sp ≠ 0xFF ∧ t.sp = s.sp + 1 ∧ (i = .ret ∨ ∃ ra, i = .pop ra)) := by
  cases h with
  | push ra hsp => exact .inr (.inl ⟨hsp, rfl, ra, .inl rfl⟩)
  | call ra u hsp hu => subst hu; exact .inr (.inl ⟨hsp, rfl, ra, .inr rfl⟩)
  | pop ra hsp => exact .inr (.inr ⟨hsp, rfl, .inr ⟨ra, rfl⟩⟩)
  | ret hsp => exact .inr (.inr ⟨hsp, rfl, .inl rfl⟩)
  | _ => exact .inl rfl

/-- `Out` is kept by every instruction but PRN, which appends its slot's byte (R20, R113). -/
theorem Effect.out_eq_or_prn (h : Effect s i (.next t)) :
    t.out = s.out ∨ ∃ ra, i = .prn ra ∧ t.out = s.out ++ [s.slot ra] := by
  cases h with
  | prn ra => exact .inr ⟨ra, rfl, rfl⟩
  | call ra u _ hu => subst hu; exact .inl rfl
  | _ => exact .inl rfl

/-- No instruction writes `Diag` (R21). -/
theorem Effect.diag_eq (h : Effect s i (.next t)) : t.diag = s.diag := by
  cases h with
  | call ra u _ hu => subst hu; rfl
  | _ => rfl

/-- The run latch is kept, or set to `halted` by HLT, or set to a fatal condition (R19, R77, R150). -/
theorem Effect.status_eq_or_hlt_or_faulted (h : Effect s i (.next t)) :
    t.status = s.status ∨ (i = .hlt ∧ t.status = .halted) ∨ ∃ c, t.status = .faulted c := by
  cases h with
  | hlt => exact .inr (.inl ⟨rfl, rfl⟩)
  | divideByZero | stackBottom | stackTop => exact .inr (.inr ⟨_, rfl⟩)
  | call ra u _ hu => subst hu; exact .inl rfl
  | _ => exact .inl rfl

/-! SP's two ends. -/

/-- SP above its lowest value goes down by exactly one, as a number. -/
theorem sp_sub_one_toNat {sp : Byte} (h : sp ≠ 0x00) : (sp - 1).toNat + 1 = sp.toNat := by bv_omega

/-- SP below its highest value goes up by exactly one, as a number. -/
theorem sp_add_one_toNat {sp : Byte} (h : sp ≠ 0xFF) : (sp + 1).toNat = sp.toNat + 1 := by bv_omega

theorem exec_push_empty (ra : Byte) (h : s.sp = 0x00) : exec (.push ra) s = .next (raise (.stackRange (-1)) s) := by
  simp [exec, execPush, push_empty s _ h]

theorem exec_call_empty (ra : Byte) (h : s.sp = 0x00) : exec (.call ra) s = .next (raise (.stackRange (-1)) s) := by
  simp [exec, execCall, push_empty s _ h]

theorem exec_pop_full (ra : Byte) (h : s.sp = 0xFF) : exec (.pop ra) s = .next (raise (.stackRange 256) s) := by
  simp [exec, execPop, pop_full s h]

theorem exec_ret_full (h : s.sp = 0xFF) : exec .ret s = .next (raise (.stackRange 256) s) := by
  simp [exec, execRet, pop_full s h]

/-- An opcode byte outside the table is unknown (R55, R57). -/
theorem opClass_of_formOf_none {op : Byte} (h : formOf op = none) : opClass op = .unknown := by
  simp [opClass, h]

/-! The statements about who changes SP, FL, the streams and the run latch. -/

/-- Settles O11: of the three things a step can do, only an instruction writes FL, and of these only CMP. -/
theorem onlyCmpChangesFlags : Obligations.OnlyCmpChangesFlags := by
  intro s t h hne
  obtain ⟨-, ⟨i, hd, -, -, -, he⟩ | ⟨-, -, rfl⟩ | ⟨c, -, rfl, -, -⟩⟩ := step_cases h
  · obtain hfl | ⟨ra, rb, rfl, hfl⟩ := he.fl_eq_or_cmp
    · exact absurd hfl hne
    · exact ⟨ra, rb, hd, hfl⟩
  · exact absurd rfl hne
  · exact absurd rfl hne

/-- Settles O12: of the three things a step can do, only an instruction moves SP, and it stops at both ends. -/
theorem onlyStackInstructionsMoveSp : Obligations.OnlyStackInstructionsMoveSp := by
  intro s t h hne
  obtain ⟨-, ⟨i, hd, -, -, -, he⟩ | ⟨-, -, rfl⟩ | ⟨c, -, rfl, -, -⟩⟩ := step_cases h
  · obtain hsp | ⟨h0, hsp, ra, rfl | rfl⟩ | ⟨h0, hsp, rfl | ⟨ra, rfl⟩⟩ := he.sp_eq_or_down_or_up
    · exact absurd hsp hne
    · exact .inl ⟨hsp ▸ sp_sub_one_toNat h0, ra, .inl hd⟩
    · exact .inl ⟨hsp ▸ sp_sub_one_toNat h0, ra, .inr hd⟩
    · exact .inr ⟨hsp ▸ sp_add_one_toNat h0, .inl hd⟩
    · exact .inr ⟨hsp ▸ sp_add_one_toNat h0, .inr ⟨ra, hd⟩⟩
  · exact absurd rfl hne
  · exact absurd rfl hne

/-- Settles O13: an instruction keeps `Diag` and only PRN appends to `Out`; an unknown opcode keeps `Out` and appends
its event to `Diag`; a failed fetch keeps both. -/
theorem streamsAreAppendOnly : Obligations.StreamsAreAppendOnly := by
  intro s t h
  obtain ⟨-, ⟨i, hd, -, -, -, he⟩ | ⟨hpc, hform, rfl⟩ | ⟨c, -, rfl, -, -⟩⟩ := step_cases h
  · refine ⟨he.out_eq_or_prn.imp_right ?_, .inl he.diag_eq⟩
    rintro ⟨ra, rfl, hout⟩
    exact ⟨ra, hd, hout⟩
  · exact ⟨.inl rfl, .inr ⟨hpc, opClass_of_formOf_none hform, rfl⟩⟩
  · exact ⟨.inl rfl, .inl rfl⟩

/-- Settles O14: a step begins in `running`, so a latch that then reads `halted` was set, and only HLT sets it so. -/
theorem onlyHltHalts : Obligations.OnlyHltHalts := by
  intro s t h hhalt
  obtain ⟨hrun, ⟨i, hd, -, -, -, he⟩ | ⟨-, -, rfl⟩ | ⟨c, -, rfl, -, -⟩⟩ := step_cases h
  · obtain hst | ⟨rfl, -⟩ | ⟨c, hst⟩ := he.status_eq_or_hlt_or_faulted
    · simp [hst, hrun] at hhalt
    · exact hd
    · simp [hst] at hhalt
  · simp [hrun] at hhalt
  · simp at hhalt

/-- Settles O42: at the end of SP's range the push or the pop raises StackRange, which cancels the whole instruction. -/
theorem spDoesNotWrap : Obligations.SpDoesNotWrap := fun _ ra =>
  ⟨fun h => ⟨exec_push_empty ra h, exec_call_empty ra h⟩, fun h => ⟨exec_pop_full ra h, exec_ret_full h⟩⟩

end Sys2Proof.Machine
end

section
/-! SUPPORT. What the two memory primitives answer on each side of the top of memory, and that a store into the next
instruction is what the next fetch reads (spec 20_memory.md rules R31, R32, R39, R42). -/

namespace Sys2Proof.Machine

variable {s : State}

/-! What a store of one byte leaves at every address. -/

/-- The stored byte reads back. -/
theorem byte_setMem_set_same (h : s.mem.wf = true) (a : Nat) (v : Byte) :
    (s.setMem (s.mem.set a v)).byte a = v := Memory.get_set_same h a v

/-- Every other byte reads as before. -/
theorem byte_setMem_set_other {a b : Nat} (v : Byte) (hab : b ≠ a) :
    (s.setMem (s.mem.set a v)).byte b = s.byte b := Memory.get_set_other s.mem v hab

/-! ST and the bytes at PC. -/

/-- ST never faults: it stores slot B's byte at the address slot A holds, then advances (R112). -/
theorem exec_st_next (ra rb : Byte) : exec (.st ra rb) s =
    .next (advance Opcode.st (s.setMem (s.mem.set (s.slot ra).toNat (s.slot rb)))) := by
  simp [exec, execSt]

/-- The first byte in front of the decoder is the byte at PC. -/
theorem window_head (h : s.pc.toNat ≤ 255) : (window s).head? = some (s.byte s.pc.toNat) := by
  have h0 : s.pc.toNat < 256 := by omega
  simp [window, Config.memSize, h0]

/-! The statements about memory. -/

/-- Settles O20: the two sides of the top of memory, for every kind of access. -/
theorem memReadInRangeOrFault : Obligations.MemReadInRangeOrFault := fun s _ kind =>
  ⟨fun h => memRead_inRange s kind (Nat.lt_succ_of_le h), memRead_beyond s kind⟩

/-- Settles O21: in range the write is one store of the truncated value into canonical memory; beyond the top it
faults. -/
theorem memWriteChangesOneByte : Obligations.MemWriteChangesOneByte := by
  intro s addr v hwf
  refine ⟨fun h => ?inRange, memWrite_beyond s v⟩
  have hlt : addr < 256 := by omega
  refine ⟨_, memWrite_inRange s v hlt, ?stored, fun a ha => byte_setMem_set_other _ ha,
    Memory.wf_set _ hwf hlt, rfl, rfl, rfl, rfl, rfl, rfl⟩
  rw [byte_setMem_set_same hwf, trunc8_toNat]

/-- Settles O22: ST stores at PC + 3 and advances PC to that same address, so the byte there is the one stored. -/
theorem storeIsSeenByTheNextFetch : Obligations.StoreIsSeenByTheNextFetch := by
  intro s ra rb hwf hpc hslot
  refine ⟨_, exec_st_next ra rb, ?_⟩
  generalize hu : s.setMem (s.mem.set (s.slot ra).toNat (s.slot rb)) = u
  have hupc : u.pc = s.pc := by rw [← hu, State.setMem_pc]
  have hstored : u.byte (s.pc.toNat + 3) = s.slot rb := by
    rw [← hu, ← hslot, byte_setMem_set_same hwf]
  have hlen : instrLen Opcode.st = 3 := rfl
  have hnext : (advance Opcode.st u).pc.toNat = s.pc.toNat + 3 := by
    rw [advance_pc_toNat _ (by rw [hupc]; omega), hupc, hlen]
  rw [window_head (by omega), hnext, State.byte_congr (advance_mem u Opcode.st), hstored]

end Sys2Proof.Machine
end

section
/-! SUPPORT. Which opcode values the table has, what the class of an opcode byte says of its table row, and that the
decoder reads back what the encoder wrote (spec 30_encoding.md rules R50, R55 to R57, R59). -/

namespace Sys2Proof

/-! The opcode values of the table, in the two classes that rule R55 makes of them. -/

/-- The values of the fully defined opcodes (R55, R56). -/
def definedValues : List Nat :=
  [0, 1, 9, 67, 72, 76, 77, 80, 81, 82, 83, 84, 112, 120, 121, 152, 153, 154, 160, 168, 169, 170, 171, 172, 177, 178,
    179]

/-- The values of IRET, PRA and INT (R55, R140). -/
def partialValues : List Nat := [11, 66, 74]

theorem not_mem_partialValues_of_mem_definedValues : ∀ v ∈ definedValues, v ∉ partialValues := by decide

/-- The table's rows are the values of the two lists: every other byte is unknown (R57). -/
theorem formOf_ne_none_iff (op : Byte) :
    formOf op ≠ none ↔ op.toNat ∈ definedValues ∨ op.toNat ∈ partialValues := by
  unfold formOf
  split
  -- the last arm of the table: the byte's value is none of the thirty
  case h_31 =>
    simp only [imp_false] at *
    simp [definedValues, partialValues, *]
  all_goals simp [definedValues, partialValues, *]

theorem isPartial_iff (op : Byte) : isPartial op = true ↔ op.toNat ∈ partialValues := by
  simp [isPartial, partialValues, BitVec.toNat_eq, or_assoc]

/-! The class of an opcode byte, from its table row and the check for a partial one. -/

theorem opClass_eq_unknown_iff (op : Byte) : opClass op = .unknown ↔ formOf op = none := by
  cases hf : formOf op <;> cases hp : isPartial op <;> simp [opClass, hf, hp]

theorem opClass_eq_partiallyImplemented_iff (op : Byte) :
    opClass op = .partiallyImplemented ↔ formOf op ≠ none ∧ isPartial op = true := by
  cases hf : formOf op <;> cases hp : isPartial op <;> simp [opClass, hf, hp]

theorem opClass_eq_defined_iff (op : Byte) :
    opClass op = .defined ↔ formOf op ≠ none ∧ ¬ isPartial op = true := by
  cases hf : formOf op <;> cases hp : isPartial op <;> simp [opClass, hf, hp]

/-! The decoder. -/

/-- With two operand bytes at hand no format lacks one, so the table row alone decides (R55). -/
theorem decode_accepts_iff (op a b : Byte) (rest : List Byte) :
    (∃ r, decode (op :: a :: b :: rest) = .ok r) ↔ formOf op ≠ none := by
  cases hf : formOf op with
  | none => simp [decode, hf]
  | some f => cases f <;> simp [decode, hf]

/-- The decoder reads an instruction back from its own bytes and leaves the bytes that follow (R50, R56). -/
theorem decode_encode (i : Instr) (rest : List Byte) : decode (encode i ++ rest) = .ok (i, rest) := by
  cases i <;> rfl

end Sys2Proof

namespace Sys2Proof.Machine

/-! The statements about the encoding. -/

/-- Settles O18: the class is a matter of the table's two disjoint lists of values, and so is acceptance. -/
theorem opcodeClassesAreTheTables : Obligations.OpcodeClassesAreTheTables := by
  refine ⟨fun op => ?defined, fun op => ?partiallyImplemented, fun op a b rest => ?accepted⟩
  case defined =>
    have hdisj := not_mem_partialValues_of_mem_definedValues op.toNat
    calc opClass op = .defined
      _ ↔ (op.toNat ∈ definedValues ∨ op.toNat ∈ partialValues) ∧ op.toNat ∉ partialValues := by
        rw [opClass_eq_defined_iff, formOf_ne_none_iff, isPartial_iff]
      _ ↔ op.toNat ∈ definedValues := by tauto
  case partiallyImplemented =>
    calc opClass op = .partiallyImplemented
      _ ↔ (op.toNat ∈ definedValues ∨ op.toNat ∈ partialValues) ∧ op.toNat ∈ partialValues := by
        rw [opClass_eq_partiallyImplemented_iff, formOf_ne_none_iff, isPartial_iff]
      _ ↔ op.toNat ∈ partialValues := and_iff_right_of_imp .inr
  case accepted => rw [decode_accepts_iff, Ne, Ne, opClass_eq_unknown_iff]

/-- Settles O19: each written-out word is the encoding of the instruction it stands for. -/
theorem writtenOutWordsDecode : Obligations.WrittenOutWordsDecode :=
  ⟨decode_encode .nop [], decode_encode .hlt [], decode_encode .ret [], decode_encode (.int 5) [],
    decode_encode (.prn 0) [], decode_encode (.call 1) [], decode_encode (.jeq 3) [], decode_encode (.inc 2) [],
    decode_encode (.ldi 0 8) [], decode_encode (.st 1 0) [], decode_encode (.cmp 2 3) [], decode_encode (.add 0 1) []⟩

end Sys2Proof.Machine
end

section
/-! SUPPORT. What a step answers for each status and each thing a fetch can bring, which opcode bytes have how many
operand bytes, and where a completed instruction leaves PC (spec 40_cycle.md rules R70 to R80). -/

namespace Sys2Proof

/-- How many operand bytes a format has (R50). -/
def Form.operandCount : Form → Nat
  | .op0 _ => 0
  | .op1 _ => 1
  | .op2 _ => 2

/-- Bits 7:6 of a table row's opcode byte count the operand bytes of its format (R50, R52). -/
theorem operandCount_of_formOf {op : Byte} {f : Form} (h : formOf op = some f) :
    f.operandCount = op.toNat / 64 := by
  unfold formOf at h
  split at h
  -- the last arm of the table: an unknown opcode has no format
  case h_31 => cases h
  all_goals
    cases h
    simp [Form.operandCount, *]

end Sys2Proof

namespace Sys2Proof.Machine

variable {s t : State} {i : Instr}

/-! The step of a running engine, by what its fetch brings (R71 to R73, R78, R150). -/

theorem step_of_fetch_instr (hrun : s.status = .running) (hf : fetch s = .ok (.instr i)) : step s = exec i s := by
  rw [step_running s hrun, hf]

theorem step_of_fetch_unknown {op : Byte} (hrun : s.status = .running) (hf : fetch s = .ok (.unknown op)) :
    step s = .next (advance op (s.log (.unknownOpcode s.pc op))) := by
  simp only [step_running s hrun, hf, execUnknown]

theorem step_of_fetch_error {c : Cause} (hrun : s.status = .running) (hf : fetch s = .error c) :
    step s = .next (s.setStatus (.faulted c)) := by
  simp only [step_running s hrun, hf, raise]

/-! Operands that lie beyond the top of memory, by how many of them the opcode takes. -/

/-- At the last address every defined opcode with operands lacks operand A (R71, R155). -/
theorem fetch_noOperandA (hpc : s.pc.toNat = 255) (hdef : opClass (s.byte 255) = .defined)
    (hlen : 1 ≤ (s.byte 255).toNat / 64) : fetch s = .error (.memRange 256 .operandA) := by
  obtain ⟨hform, hpart⟩ := (opClass_eq_defined_iff _).mp hdef
  obtain ⟨f, hf⟩ := Option.ne_none_iff_exists'.mp hform
  rw [← operandCount_of_formOf hf] at hlen
  cases f with
  | op0 j => simp [Form.operandCount] at hlen
  | op1 mk => exact fetch_op1_beyond hpc hf (Bool.eq_false_iff.mpr hpart)
  | op2 mk => exact fetch_op2_noA hpc hf

/-- At the last address but one every defined two-operand opcode lacks operand B (R71, R155). -/
theorem fetch_noOperandB (hpc : s.pc.toNat = 254) (hdef : opClass (s.byte 254) = .defined)
    (hlen : (s.byte 254).toNat / 64 = 2) : fetch s = .error (.memRange 256 .operandB) := by
  obtain ⟨hform, -⟩ := (opClass_eq_defined_iff _).mp hdef
  obtain ⟨f, hf⟩ := Option.ne_none_iff_exists'.mp hform
  rw [← operandCount_of_formOf hf] at hlen
  cases f with
  | op0 j => simp [Form.operandCount] at hlen
  | op1 mk => simp [Form.operandCount] at hlen
  | op2 mk => exact fetch_op2_noB hpc hf

/-! Where a completed instruction leaves PC. -/

/-- The address an instruction that sets PC sets it to: the byte RET pops, or the byte in slot A of the state it leaves,
which for CALL is the state after its push (R74, R122; log entry 12). -/
def pcTarget (i : Instr) (s t : State) : Nat :=
  match i with
  | .ret => (s.byte s.sp.toNat).toNat
  | .call ra | .jmp ra | .jeq ra | .jne ra | .jlt ra | .jgt ra => (t.slot ra).toNat
  | _ => 0

/-- A jump that is taken goes to the byte in its slot. -/
theorem pcTarget_of_jump {ra : Byte} (hi : i ∈ [Instr.jmp ra, .jeq ra, .jne ra, .jlt ra, .jgt ra]) :
    pcTarget i s t = (t.slot ra).toNat := by
  simp only [List.mem_cons, List.not_mem_nil, or_false] at hi
  rcases hi with rfl | rfl | rfl | rfl | rfl <;> rfl

/-- An instruction sets PC to its target, or advances it by the length of its opcode, or faults (R74, R75, R80). -/
theorem Effect.pc_set_or_advanced_or_faulted (h : Effect s i (.next t)) :
    (setsPc i s = true ∧ t.pc.toNat = pcTarget i s t) ∨
    (setsPc i s = false ∧ t.pc = (advance i.opcode s).pc) ∨
    ∃ c, t.status = .faulted c := by
  cases h with
  | call ra u => exact .inl ⟨rfl, jumpTo_pc_toNat _⟩
  | ret => exact .inl ⟨rfl, jumpTo_pc_toNat _⟩
  | jump _ ra hi hc => exact .inl ⟨hc, (jumpTo_pc_toNat _).trans (pcTarget_of_jump hi).symm⟩
  | divideByZero | stackBottom | stackTop => exact .inr (.inr ⟨_, rfl⟩)
  | pass _ hc | store _ a v hc => exact .inr (.inl ⟨hc, rfl⟩)
  | _ => exact .inr (.inl ⟨rfl, rfl⟩)

/-- The decoder reads no instruction at a byte outside the table (R55, R57). -/
theorem not_decoded_of_formOf_none (hpc : s.pc.toNat ≤ 255) (hform : formOf (s.byte s.pc.toNat) = none) :
    ¬ Decoded s i := by
  intro hd
  have hf := fetch_of_decoded hd
  rw [fetch_unknown hpc hform] at hf
  cases hf

/-- The advance in the words of rule R52: one byte and as many more as bits 7:6 of the opcode say. -/
theorem advance_pc_toNat_bits (op : Byte) (h : s.pc.toNat ≤ 255) :
    (advance op s).pc.toNat = s.pc.toNat + 1 + op.toNat / 64 := by
  rw [advance_pc_toNat op h, instrLen, Nat.add_assoc]

/-- LDI never faults: it stores its immediate in slot A, then advances (R110). -/
theorem exec_ldi_next (ra imm : Byte) : exec (.ldi ra imm) s =
    .next (advance Opcode.ldi (s.setMem (s.mem.set ra.toNat imm))) := by
  simp [exec, execLdi, immediate]

theorem exec_nop_next : exec .nop s = .next (advance Opcode.nop s) := rfl

theorem exec_hlt_next : exec .hlt s = .next (advance Opcode.hlt (s.setStatus .halted)) := rfl

/-! The statements about the cycle. -/

/-- Settles O10: an instruction sets PC to its target or advances it by its fetched opcode's length; where the decoder
reads none, the step skipped an unknown opcode by the same length. -/
theorem pcAdvanceLaw : Obligations.PcAdvanceLaw := by
  intro s t h hst
  obtain ⟨-, ⟨i, hd, hpc, hop, -, he⟩ | ⟨hpc, hform, rfl⟩ | ⟨c, -, rfl, -, -⟩⟩ := step_cases h
  case inl =>
    obtain ⟨hset, htarget⟩ | ⟨hset, hadv⟩ | ⟨c, hfault⟩ := he.pc_set_or_advanced_or_faulted
    · refine ⟨fun j hj _ => ?_, fun hnone => absurd hset (by simp [hnone i hd])⟩
      obtain rfl := decoded_unique hd hj
      exact htarget
    · refine ⟨fun j hj hj' => ?_, fun _ => ?_⟩
      · obtain rfl := decoded_unique hd hj
        exact absurd hj' (by simp [hset])
      · rw [hadv, hop, advance_pc_toNat_bits _ hpc]
    · simp [hfault] at hst
  case inr.inl =>
    exact ⟨fun i hd => absurd hd (not_decoded_of_formOf_none hpc hform),
      fun _ => advance_pc_toNat_bits (s := s.log _) _ hpc⟩
  case inr.inr => simp at hst

/-- Settles O6: the byte has no table row, so the step logs it and advances by its own length. -/
theorem unknownOpcodeIsLoggedAndSkipped : Obligations.UnknownOpcodeIsLoggedAndSkipped := by
  rintro s op hrun hpc rfl hclass
  have hf := fetch_unknown hpc ((opClass_eq_unknown_iff _).mp hclass)
  exact ⟨_, step_of_fetch_unknown hrun hf, rfl, advance_pc_toNat_bits (s := s.log _) _ hpc, fun _ => rfl, rfl, rfl,
    hrun, rfl⟩

/-- Settles O7: each of the three fetches fails, and a failed fetch sets the run latch alone. -/
theorem fetchBeyondMemoryFaults : Obligations.FetchBeyondMemoryFaults := fun _ hrun =>
  ⟨fun hpc => step_of_fetch_error hrun (fetch_beyond hpc),
    fun hpc hdef hlen => step_of_fetch_error hrun (fetch_noOperandA hpc hdef hlen),
    fun hpc hdef hlen => step_of_fetch_error hrun (fetch_noOperandB hpc hdef hlen)⟩

/-- Settles O23: the fetched LDI stores its immediate at its own address, and its advance does not read memory again. -/
theorem overwrittenOpcodeStillAdvancesByThree : Obligations.OverwrittenOpcodeStillAdvancesByThree := by
  intro s imm hrun hwf hpc hop ha himm
  have hf : fetch s = .ok (.instr (.ldi (s.pc.setWidth 8) imm)) := by
    rw [fetch_op2 (mk := .ldi) hpc (by rw [hop]; rfl), ha, himm]
  have haddr : (s.pc.setWidth 8).toNat = s.pc.toNat := by
    rw [BitVec.toNat_setWidth]
    exact Nat.mod_eq_of_lt (by omega)
  have hstep : step s = .next (advance Opcode.ldi (s.setMem (s.mem.set s.pc.toNat imm))) := by
    rw [step_of_fetch_instr hrun hf, exec_ldi_next, haddr]
  exact ⟨_, hstep, ⟨byte_setMem_set_same hwf _ _, fun _ hne => byte_setMem_set_other _ hne⟩,
    advance_pc_toNat (s := s.setMem _) Opcode.ldi (hpc.trans (by decide)), rfl, rfl, rfl, rfl, rfl⟩

/-- Settles O4: each status but `running` has its own arm of the step. -/
theorem noStepUnlessRunning : Obligations.NoStepUnlessRunning := fun s =>
  ⟨fun h => by simp only [step, h], fun c h => by simp only [step, h], fun op h => by simp only [step, h]⟩

/-- Settles O5: what the decoder reads at PC is what the fetch brings to the step. -/
theorem stepRunsTheDecodedInstruction : Obligations.StepRunsTheDecodedInstruction := fun _ _ rest hrun hd =>
  step_of_fetch_instr hrun (fetch_of_decoded ⟨rest, hd⟩)

/-- Settles O48: NOP is the advance alone, HLT the advance and the run latch, and both opcodes have length 1. -/
theorem nopAndHltAdvance : Obligations.NopAndHltAdvance := fun _ =>
  ⟨⟨_, exec_nop_next, rfl, fun _ => rfl, rfl, rfl, rfl, rfl, rfl⟩,
    ⟨_, exec_hlt_next, rfl, rfl, rfl, fun _ => rfl, rfl, rfl, rfl, rfl⟩⟩

end Sys2Proof.Machine
end

section
/-! SUPPORT. The storing ALU instructions as operations of bytes on one slot, CMP as a replacement of FL, and what the
jump after a CMP tests (spec 41_alu.md rules R90 to R104; 43_stack_control.md rules R125 to R128, R130). -/

namespace Sys2Proof.Machine

/-! What the ALU's exact integers are once truncated: the operations of bytes (R90). -/

theorem trunc8_aluAdd (a b : Byte) : trunc8 (aluAdd a b) = a + b := by
  simp [trunc8, aluAdd, BitVec.ofInt_add]

theorem trunc8_aluSub (a b : Byte) : trunc8 (aluSub a b) = a - b := by
  simp [trunc8, aluSub, Int.sub_eq_add_neg, BitVec.ofInt_add, BitVec.ofInt_neg, BitVec.sub_eq_add_neg]

theorem trunc8_aluMul (a b : Byte) : trunc8 (aluMul a b) = a * b := by
  simp [trunc8, aluMul, BitVec.ofInt_mul]

theorem trunc8_aluDiv (a b : Byte) : trunc8 (aluDiv a b) = a / b := by
  rw [aluDiv, ← BitVec.toNat_udiv, trunc8_toNat_byte]

theorem trunc8_aluMod (a b : Byte) : trunc8 (aluMod a b) = a % b := by
  rw [aluMod, ← BitVec.toNat_umod, trunc8_toNat_byte]

theorem trunc8_aluInc (a : Byte) : trunc8 (aluInc a) = a + 1 := trunc8_aluAdd a 1

theorem trunc8_aluDec (a : Byte) : trunc8 (aluDec a) = a - 1 := trunc8_aluSub a 1

theorem trunc8_aluNot (a : Byte) : trunc8 (aluNot a) = ~~~a := by
  rw [aluNot, trunc8_toNat_byte]
  exact BitVec.xor_allOnes

theorem trunc8_aluAnd (a b : Byte) : trunc8 (aluAnd a b) = a &&& b := trunc8_toNat_byte _

theorem trunc8_aluOr (a b : Byte) : trunc8 (aluOr a b) = a ||| b := trunc8_toNat_byte _

theorem trunc8_aluXor (a b : Byte) : trunc8 (aluXor a b) = a ^^^ b := trunc8_toNat_byte _

/-! A byte stored in a slot, then the advance: how every storing ALU instruction ends. -/

/-- The byte `v` in slot `ra`, and PC after the opcode `op`. -/
def storeSlot (op ra v : Byte) (s : State) : State := advance op (s.setMem (s.mem.set ra.toNat v))

/-- Slot `ra` and PC, which goes on by `len`, are all that may differ. -/
def OnlySlotAndPc (ra : Byte) (len : PcWord) (s t : State) : Prop :=
  MemoryOnlyAt ra.toNat (t.slot ra) s t ∧ t.pc = s.pc + len ∧
    t.sp = s.sp ∧ t.fl = s.fl ∧ t.status = s.status ∧ t.out = s.out ∧ t.diag = s.diag

theorem slot_storeSlot {s : State} (h : s.mem.wf = true) (op ra v : Byte) : (storeSlot op ra v s).slot ra = v :=
  byte_setMem_set_same h ra.toNat v

theorem onlySlotAndPc_storeSlot (op ra v : Byte) (s : State) :
    OnlySlotAndPc ra (BitVec.ofNat 9 (instrLen op)) s (storeSlot op ra v s) :=
  ⟨⟨rfl, fun _ hne => byte_setMem_set_other v hne⟩, rfl, rfl, rfl, rfl, rfl, rfl⟩

/-! What each ALU instruction answers. -/

section
variable (s : State) (ra rb : Byte)

theorem exec_add_next : exec (.add ra rb) s = .next (storeSlot Opcode.add ra (s.slot ra + s.slot rb) s) := by
  rw [exec, execAdd, aluBinary_next, trunc8_aluAdd, storeSlot]

theorem exec_sub_next : exec (.sub ra rb) s = .next (storeSlot Opcode.sub ra (s.slot ra - s.slot rb) s) := by
  rw [exec, execSub, aluBinary_next, trunc8_aluSub, storeSlot]

theorem exec_mul_next : exec (.mul ra rb) s = .next (storeSlot Opcode.mul ra (s.slot ra * s.slot rb) s) := by
  rw [exec, execMul, aluBinary_next, trunc8_aluMul, storeSlot]

theorem exec_and_next : exec (.and ra rb) s = .next (storeSlot Opcode.and ra (s.slot ra &&& s.slot rb) s) := by
  rw [exec, execAnd, aluBinary_next, trunc8_aluAnd, storeSlot]

theorem exec_or_next : exec (.or ra rb) s = .next (storeSlot Opcode.or ra (s.slot ra ||| s.slot rb) s) := by
  rw [exec, execOr, aluBinary_next, trunc8_aluOr, storeSlot]

theorem exec_xor_next : exec (.xor ra rb) s = .next (storeSlot Opcode.xor ra (s.slot ra ^^^ s.slot rb) s) := by
  rw [exec, execXor, aluBinary_next, trunc8_aluXor, storeSlot]

theorem exec_inc_next : exec (.inc ra) s = .next (storeSlot Opcode.inc ra (s.slot ra + 1) s) := by
  rw [exec, execInc, aluUnary_next, trunc8_aluInc, storeSlot]

theorem exec_dec_next : exec (.dec ra) s = .next (storeSlot Opcode.dec ra (s.slot ra - 1) s) := by
  rw [exec, execDec, aluUnary_next, trunc8_aluDec, storeSlot]

theorem exec_not_next : exec (.not ra) s = .next (storeSlot Opcode.not ra (~~~s.slot ra) s) := by
  rw [exec, execNot, aluUnary_next, trunc8_aluNot, storeSlot]

theorem exec_div_next (h : s.slot rb ≠ 0) :
    exec (.div ra rb) s = .next (storeSlot Opcode.div ra (s.slot ra / s.slot rb) s) := by
  rw [exec, execDiv, aluDivide_next s _ _ _ _ h, trunc8_aluDiv, storeSlot]

theorem exec_mod_next (h : s.slot rb ≠ 0) :
    exec (.mod ra rb) s = .next (storeSlot Opcode.mod ra (s.slot ra % s.slot rb) s) := by
  rw [exec, execMod, aluDivide_next s _ _ _ _ h, trunc8_aluMod, storeSlot]

theorem exec_div_zero (h : s.slot rb = 0) : exec (.div ra rb) s = .next (raise (.divideByZero s.pc) s) :=
  aluDivide_zero s _ _ ra rb h

theorem exec_mod_zero (h : s.slot rb = 0) : exec (.mod ra rb) s = .next (raise (.divideByZero s.pc) s) :=
  aluDivide_zero s _ _ ra rb h

theorem exec_cmp_next : exec (.cmp ra rb) s =
    .next (advance Opcode.cmp (s.setFl (compareFlags (s.slot ra) (s.slot rb)))) := by
  simp [exec, execCmp]

end

/-! Which flag a comparison sets, and what a conditional jump does with it. -/

section
variable {a b : Byte}

theorem compareFlags_of_eq (h : a.toNat = b.toNat) : compareFlags a b = flE := if_pos h

theorem compareFlags_of_lt (h : a.toNat < b.toNat) : compareFlags a b = flL := by
  rw [compareFlags, if_neg h.ne, if_pos h]

theorem compareFlags_of_gt (h : b.toNat < a.toNat) : compareFlags a b = flG := by
  rw [compareFlags, if_neg h.ne', if_neg h.not_gt]

end

/-- After a comparison each flag is set exactly on the relation it is named after (R103). -/
theorem flagSet_compareFlags (a b : Byte) :
    (flagSet (compareFlags a b) flE = true ↔ a.toNat = b.toNat) ∧
    (flagSet (compareFlags a b) flL = true ↔ a.toNat < b.toNat) ∧
    (flagSet (compareFlags a b) flG = true ↔ b.toNat < a.toNat) := by
  rcases Nat.lt_trichotomy a.toNat b.toNat with hlt | heq | hgt
  · rw [compareFlags_of_lt hlt]
    exact ⟨iff_of_false (by decide) hlt.ne, iff_of_true (by decide) hlt, iff_of_false (by decide) hlt.not_gt⟩
  · rw [compareFlags_of_eq heq]
    exact ⟨iff_of_true (by decide) heq, iff_of_false (by decide) heq.not_lt, iff_of_false (by decide) heq.not_gt⟩
  · rw [compareFlags_of_gt hgt]
    exact ⟨iff_of_false (by decide) hgt.ne', iff_of_false (by decide) hgt.not_gt, iff_of_true (by decide) hgt⟩

/-- A conditional jump goes to its slot's byte if its condition holds, and else past its two bytes (R125 to R128). -/
theorem exec_conditionalJump (s : State) {i : Instr} {rt : Byte} (hi : i ∈ [Instr.jeq rt, .jne rt, .jlt rt, .jgt rt]) :
    ∃ u, exec i s = .next u ∧
      if setsPc i s = true then u.pc.toNat = (s.slot rt).toNat else u.pc = s.pc + 2 := by
  have hjump : ∃ op, exec i s = jumpIf op (setsPc i s) rt s ∧ instrLen op = 2 := by
    simp only [List.mem_cons, List.not_mem_nil, or_false] at hi
    rcases hi with rfl | rfl | rfl | rfl <;> exact ⟨_, rfl, rfl⟩
  obtain ⟨op, hexec, hlen⟩ := hjump
  rw [hexec]
  cases setsPc i s with
  | true => exact ⟨_, jumpIf_taken s _ rt, jumpTo_pc_toNat _⟩
  | false =>
    refine ⟨_, jumpIf_notTaken s _ rt, ?_⟩
    rw [advance_pc, hlen]
    rfl

/-! The statements about the ALU. -/

/-- Settles O28: the zero divisor raises the fault, which sets the run latch alone, and a faulted engine has no step. -/
theorem divAndModByZeroAreFatal : Obligations.DivAndModByZeroAreFatal := fun s ra rb h =>
  ⟨exec_div_zero s ra rb h, exec_mod_zero s ra rb h, (noStepUnlessRunning _).2.1 _ rfl⟩

/-- Settles O32: CMP is the comparison's three-way value in FL and the advance. -/
theorem cmpReplacesTheFlags : Obligations.CmpReplacesTheFlags := fun s ra rb =>
  ⟨_, exec_cmp_next s ra rb, rfl, fun _ => rfl, rfl, rfl, rfl, rfl, rfl⟩

/-- Settles O24: the stored byte is the sum of two bytes, which wraps at 256. -/
theorem addStoresTheSum : Obligations.AddStoresTheSum := by
  intro s ra rb hwf
  refine ⟨rfl, _, exec_add_next s ra rb, ?_, onlySlotAndPc_storeSlot ..⟩
  rw [slot_storeSlot hwf, BitVec.toNat_add]

/-- Settles O25: the stored byte is the difference of two bytes, which wraps exactly where B exceeds A. -/
theorem subStoresTheDifference : Obligations.SubStoresTheDifference := by
  intro s ra rb hwf
  refine ⟨rfl, _, exec_sub_next s ra rb, ?_, onlySlotAndPc_storeSlot ..⟩
  rw [slot_storeSlot hwf]
  split
  · next hle => exact BitVec.toNat_sub_of_le hle
  · next hlt => bv_omega

/-- Settles O26: the stored byte is the product of two bytes, which wraps at 256. -/
theorem mulStoresTheLowByteOfTheProduct : Obligations.MulStoresTheLowByteOfTheProduct := by
  intro s ra rb hwf
  refine ⟨rfl, _, exec_mul_next s ra rb, ?_, onlySlotAndPc_storeSlot ..⟩
  rw [slot_storeSlot hwf, BitVec.toNat_mul]

/-- Settles O27: quotient and remainder of bytes are those of their numbers. -/
theorem divAndModStoreQuotientAndRemainder : Obligations.DivAndModStoreQuotientAndRemainder := by
  intro s ra rb hwf hb
  refine ⟨⟨_, exec_div_next s ra rb hb, ?quotient, onlySlotAndPc_storeSlot ..⟩,
    ⟨_, exec_mod_next s ra rb hb, ?remainder, onlySlotAndPc_storeSlot ..⟩⟩
  case quotient => rw [slot_storeSlot hwf, BitVec.toNat_udiv]
  case remainder => rw [slot_storeSlot hwf, BitVec.toNat_umod]

/-- Settles O29: the division law of natural numbers, for the quotient and the remainder that O27 finds in the slot. -/
theorem divAndModRecomposeTheDividend : Obligations.DivAndModRecomposeTheDividend := by
  intro s ra rb hwf hb
  obtain ⟨⟨t, ht, hquot, -⟩, ⟨u, hu, hrem, -⟩⟩ := divAndModStoreQuotientAndRemainder s ra rb hwf hb
  refine ⟨t, u, ht, hu, ?_⟩
  rw [hquot, hrem]
  have hpos : 0 < (s.slot rb).toNat := Nat.pos_of_ne_zero fun h0 => hb (BitVec.eq_of_toNat_eq h0)
  exact ⟨Nat.div_add_mod' _ _, Nat.mod_lt _ hpos⟩

/-- Settles O30: one byte more, one byte less, the complement. -/
theorem incDecNotWorkInPlace : Obligations.IncDecNotWorkInPlace := by
  intro s ra hwf
  refine ⟨⟨_, exec_inc_next s ra, ?inc, onlySlotAndPc_storeSlot ..⟩,
    ⟨_, exec_dec_next s ra, ?dec, onlySlotAndPc_storeSlot ..⟩,
    ⟨_, exec_not_next s ra, ?not, onlySlotAndPc_storeSlot ..⟩⟩
  case inc => rw [slot_storeSlot hwf, BitVec.toNat_add]; rfl
  case dec => rw [slot_storeSlot hwf, BitVec.toNat_sub, Nat.add_comm]; rfl
  case not => rw [slot_storeSlot hwf, BitVec.toNat_not]

/-- Settles O31: the bits of the bitwise operations of bytes. -/
theorem bitwiseOperationsWorkBitByBit : Obligations.BitwiseOperationsWorkBitByBit := by
  intro s ra rb hwf
  refine ⟨⟨_, exec_and_next s ra rb, fun k => ?and, onlySlotAndPc_storeSlot ..⟩,
    ⟨_, exec_or_next s ra rb, fun k => ?or, onlySlotAndPc_storeSlot ..⟩,
    ⟨_, exec_xor_next s ra rb, fun k => ?xor, onlySlotAndPc_storeSlot ..⟩⟩
  case and => rw [slot_storeSlot hwf, BitVec.getLsbD_and]
  case or => rw [slot_storeSlot hwf, BitVec.getLsbD_or]
  case xor => rw [slot_storeSlot hwf, BitVec.getLsbD_xor]

/-- Settles O33: both operands are the same byte, so each operation is its law for one byte. -/
theorem sameRegisterTwice : Obligations.SameRegisterTwice := by
  intro s ra hwf
  refine ⟨⟨_, exec_add_next s ra ra, ?add⟩, ⟨_, exec_sub_next s ra ra, ?sub⟩, ⟨_, exec_xor_next s ra ra, ?xor⟩,
    ⟨_, exec_and_next s ra ra, ?and⟩, ⟨_, exec_or_next s ra ra, ?or⟩, ⟨_, exec_mul_next s ra ra, ?mul⟩,
    fun hne => ⟨_, exec_div_next s ra ra hne, ?div⟩, fun hne => ⟨_, exec_mod_next s ra ra hne, ?mod⟩,
    fun hzero i hi => ?zero, ⟨_, exec_cmp_next s ra ra, ?cmp⟩⟩
  case add => rw [slot_storeSlot hwf, BitVec.toNat_add, Nat.two_mul]
  case sub => rw [slot_storeSlot hwf, BitVec.sub_self]; rfl
  case xor => rw [slot_storeSlot hwf, BitVec.xor_self]; rfl
  case and => rw [slot_storeSlot hwf, BitVec.and_self]
  case or => rw [slot_storeSlot hwf, BitVec.or_self]
  case mul => rw [slot_storeSlot hwf, BitVec.toNat_mul]
  case div => exact (slot_storeSlot hwf ..).trans (BitVec.udiv_self.trans (if_neg (by simpa using hne)))
  case mod => rw [slot_storeSlot hwf, BitVec.umod_self]; rfl
  case zero =>
    simp only [List.mem_cons, List.not_mem_nil, or_false] at hi
    obtain rfl | rfl := hi
    · exact ⟨_, exec_div_zero s ra ra hzero, rfl⟩
    · exact ⟨_, exec_mod_zero s ra ra hzero, rfl⟩
  case cmp => exact compareFlags_of_eq rfl

/-- Settles O47: CMP leaves its comparison in FL, of which each conditional jump tests the one flag it is about. -/
theorem compareDecidesTheNextJump : Obligations.CompareDecidesTheNextJump := by
  intro s ra rb rt
  obtain ⟨hflE, hflL, hflG⟩ := flagSet_compareFlags (s.slot ra) (s.slot rb)
  rw [BitVec.toNat_inj] at hflE
  have hnot : (!flagSet (compareFlags (s.slot ra) (s.slot rb)) flE) = true ↔ s.slot ra ≠ s.slot rb := by
    rw [Bool.not_eq_true', ← Bool.not_eq_true, hflE]
  exact ⟨_, exec_cmp_next s ra rb, hflE, hnot, hflL, hflG, fun i hi => exec_conditionalJump _ hi⟩

end Sys2Proof.Machine
end

section
/-! SUPPORT. LDI, LD and ST as one byte stored, PRN as one byte put out, each with all it leaves unchanged (spec
42_move_io.md rules R110 to R113). -/

namespace Sys2Proof.Machine

/-- A store into canonical memory leaves its byte at the slot's address, goes on with PC by the opcode's length, and
keeps all else. -/
theorem storeSlot_stored_and_frame {s : State} (h : s.mem.wf = true) (op ra v : Byte) :
    MemoryOnlyAt ra.toNat v s (storeSlot op ra v s) ∧
      (storeSlot op ra v s).pc = s.pc + BitVec.ofNat 9 (instrLen op) ∧ (storeSlot op ra v s).sp = s.sp ∧
      (storeSlot op ra v s).fl = s.fl ∧ (storeSlot op ra v s).status = s.status ∧
      (storeSlot op ra v s).out = s.out ∧ (storeSlot op ra v s).diag = s.diag := by
  have hframe := onlySlotAndPc_storeSlot op ra v s
  rwa [OnlySlotAndPc, slot_storeSlot h] at hframe

/-- LD never faults: it stores in slot A the byte at the address slot B holds, then advances (R111). -/
theorem exec_ld_next (s : State) (ra rb : Byte) :
    exec (.ld ra rb) s = .next (storeSlot Opcode.ld ra (s.slot (s.slot rb)) s) := by
  simp [exec, execLd, storeSlot]

/-- PRN never faults: it puts out slot A's byte, then advances (R113). -/
theorem exec_prn_next (s : State) (ra : Byte) :
    exec (.prn ra) s = .next (advance Opcode.prn (s.emit (s.slot ra))) := by
  simp [exec, execPrn]

/-! The statements about data movement and output. -/

/-- Settles O34: LDI is the store of its immediate in slot A, which is a byte of memory for every operand byte. -/
theorem ldiWritesTheImmediate : Obligations.LdiWritesTheImmediate := fun _ ra imm hwf =>
  ⟨rfl, _, exec_ldi_next ra imm, storeSlot_stored_and_frame hwf Opcode.ldi ra imm⟩

/-- Settles O35: LD is the store in slot A of the byte read through slot B. -/
theorem ldLoadsThroughOperandB : Obligations.LdLoadsThroughOperandB := fun s ra rb hwf =>
  ⟨_, exec_ld_next s ra rb, storeSlot_stored_and_frame hwf Opcode.ld ra (s.slot (s.slot rb))⟩

/-- Settles O36: ST is the store of slot B's byte in the slot that slot A names. -/
theorem stStoresThroughOperandA : Obligations.StStoresThroughOperandA := fun s ra rb hwf =>
  ⟨_, exec_st_next ra rb, storeSlot_stored_and_frame hwf Opcode.st (s.slot ra) (s.slot rb)⟩

/-- Settles O37: PRN is one byte at the end of the output and the advance, which writes no memory. -/
theorem prnAppendsTheByte : Obligations.PrnAppendsTheByte := fun s ra =>
  ⟨_, exec_prn_next s ra, rfl, fun _ => rfl, rfl, rfl, rfl, rfl, rfl⟩

end Sys2Proof.Machine
end

section
/-! SUPPORT. What each stack instruction and each jump answers where it completes, and what a push or a jump leaves
unchanged (spec 43_stack_control.md rules R120 to R130). -/

namespace Sys2Proof.Machine

variable {s t u : State}

/-! A byte pushed: what PUSH and CALL share. -/

/-- The state after the push of the byte `v` (R129). -/
def pushed (v : Byte) (s : State) : State := (s.setSp (s.sp - 1)).setMem (s.mem.set (s.sp - 1).toNat v)

theorem push_eq_pushed (v : Int) (h : s.sp ≠ 0x00) : push v s = .ok (pushed (trunc8 v) s) := push_next s v h

theorem memoryOnlyAt_pushed (h : s.mem.wf = true) (v : Byte) : MemoryOnlyAt (s.sp - 1).toNat v s (pushed v s) :=
  ⟨Memory.get_set_same h _ v, fun _ hne => Memory.get_set_other s.mem v hne⟩

/-- The return address as CALL stores it, in one byte (R122; log entry 12). -/
def returnByte (s : State) : Byte := trunc8 ((s.pc.toNat : Int) + 2)

theorem returnByte_toNat (s : State) : (returnByte s).toNat = (s.pc.toNat + 2) % 256 :=
  trunc8_ofNat_toNat (s.pc.toNat + 2)

/-! What each stack instruction answers away from the end of SP's range. -/

theorem exec_push_next (ra : Byte) (h : s.sp ≠ 0x00) :
    exec (.push ra) s = .next (advance Opcode.push (pushed (s.slot ra) s)) := by
  simp [exec, execPush, push_eq_pushed _ h]

theorem exec_pop_next (ra : Byte) (h : s.sp ≠ 0xFF) :
    exec (.pop ra) s = .next (storeSlot Opcode.pop ra (s.byte s.sp.toNat) (s.setSp (s.sp + 1))) := by
  simp [exec, execPop, pop_next s h, storeSlot]

theorem exec_call_next (ra : Byte) (h : s.sp ≠ 0x00) :
    exec (.call ra) s = .next (jumpTo ((pushed (returnByte s) s).slot ra) (pushed (returnByte s) s)) := by
  simp [exec, execCall, push_eq_pushed _ h, returnByte]

theorem exec_ret_next (h : s.sp ≠ 0xFF) :
    exec .ret s = .next (jumpTo (s.byte s.sp.toNat) (s.setSp (s.sp + 1))) := by
  simp [exec, execRet, pop_next s h]

/-! What makes two stack instructions in a row cancel out. -/

/-- An instruction keeps memory in canonical form: it stores at most one byte, at the address a byte names (R30). -/
theorem Effect.mem_wf {i : Instr} (h : Effect s i (.next t)) (hwf : s.mem.wf = true) : t.mem.wf = true := by
  cases h with
  | store _ a v => exact Memory.wf_set v hwf a.isLt
  | push ra => exact Memory.wf_set _ hwf (s.sp - 1).isLt
  | pop ra => exact Memory.wf_set _ hwf ra.isLt
  | call ra u _ hu => subst hu; exact Memory.wf_set _ hwf (s.sp - 1).isLt
  | _ => exact hwf

/-- An SP that a push has taken down is the old one less one, and is not at the top, so a pop can follow. -/
theorem sp_of_toNat_add_one {sp sp' : Byte} (h : sp'.toNat + 1 = sp.toNat) : sp' = sp - 1 ∧ sp' ≠ 0xFF := by
  constructor <;> bv_omega

/-- A byte copied from `q` to `p` and back again is in the end written at `p` alone, also where `p` is `q`. -/
theorem MemoryOnlyAt.copy_back {p q : Nat} (hto : MemoryOnlyAt p (s.byte q) s t)
    (hback : MemoryOnlyAt q (t.byte p) t u) : u.byte q = s.byte q ∧ MemoryOnlyAt p (s.byte q) s u := by
  obtain ⟨hp, hkeptTo⟩ := hto
  obtain ⟨hq, hkeptBack⟩ := hback
  rw [hp] at hq
  refine ⟨hq, ?copy, fun a hap => ?other⟩
  case copy =>
    by_cases hpq : p = q
    · rw [hpq, hq]
    · rw [hkeptBack p hpq, hp]
  case other =>
    by_cases haq : a = q
    · rw [haq, hq]
    · rw [hkeptBack a haq, hkeptTo a hap]

/-! The jumps. -/

/-- PC is all that may differ. -/
def OnlyPc (s t : State) : Prop :=
  SameMemory s t ∧ t.sp = s.sp ∧ t.fl = s.fl ∧ t.status = s.status ∧ t.out = s.out ∧ t.diag = s.diag

theorem onlyPc_setPc (v : PcWord) (s : State) : OnlyPc s (s.setPc v) := ⟨fun _ => rfl, rfl, rfl, rfl, rfl, rfl⟩

/-- A jump to the address PC already holds leaves the whole state as it was (R74, R124). -/
theorem jumpTo_eq_self {v : Byte} (h : v.toNat = s.pc.toNat) : jumpTo v s = s := by
  have hpc : v.setWidth 9 = s.pc := BitVec.eq_of_toNat_eq ((jumpTo_pc_toNat (s := s) v).trans h)
  rw [jumpTo, hpc, State.setPc]

/-- The test of a flag as the rules write it (R130). -/
theorem flagSet_iff (fl f : Byte) : flagSet fl f = true ↔ fl &&& f ≠ 0 := bne_iff_ne

theorem not_flagSet_iff (fl f : Byte) : (!flagSet fl f) = true ↔ fl &&& f = 0 := by
  rw [Bool.not_eq_true', ← Bool.not_eq_true, flagSet_iff, not_ne_iff]

/-- A conditional jump goes to its slot's byte where its condition holds and past its two bytes where it does not, and
keeps all but PC either way (R74, R125 to R128). -/
theorem jumpIf_sets_pc_alone {op : Byte} {cond : Bool} {p : Prop} [Decidable p] (hlen : instrLen op = 2)
    (hp : cond = true ↔ p) (ra : Byte) (s : State) :
    ∃ t, jumpIf op cond ra s = .next t ∧
      (if p then t.pc.toNat = (s.slot ra).toNat else t.pc = s.pc + 2) ∧ OnlyPc s t := by
  by_cases h : p
  · obtain rfl := hp.mpr h
    refine ⟨_, jumpIf_taken s op ra, ?_, onlyPc_setPc _ s⟩
    rw [if_pos h, jumpTo_pc_toNat]
  · obtain rfl : cond = false := Bool.eq_false_iff.mpr (mt hp.mp h)
    refine ⟨_, jumpIf_notTaken s op ra, ?_, onlyPc_setPc _ s⟩
    rw [if_neg h, advance_pc, hlen]
    rfl

theorem exec_jmp_next (ra : Byte) : exec (.jmp ra) s = .next (jumpTo (s.slot ra) s) := jumpIf_taken s Opcode.jmp ra

/-! The statements about the stack, call and return. -/

/-- Settles O38: PUSH is the push of slot A's byte and the advance. -/
theorem pushWritesBelowSp : Obligations.PushWritesBelowSp := fun s ra hwf hsp =>
  ⟨_, exec_push_next ra hsp, memoryOnlyAt_pushed hwf (s.slot ra), sp_sub_one_toNat hsp, rfl, rfl, rfl, rfl, rfl⟩

/-- Settles O39: POP is the store in slot A of the byte at SP, in the state whose SP has gone up. -/
theorem popReadsAtSp : Obligations.PopReadsAtSp := by
  intro s ra hwf hsp
  obtain ⟨hmem, hpc, -, hframe⟩ :=
    storeSlot_stored_and_frame (s := s.setSp (s.sp + 1)) hwf Opcode.pop ra (s.byte s.sp.toNat)
  exact ⟨_, exec_pop_next ra hsp, hmem, sp_add_one_toNat hsp, hpc, hframe⟩

/-- Settles O40: CALL is the push of the return address and the jump to slot A of the state after that push. -/
theorem callPushesTheReturnAddress : Obligations.CallPushesTheReturnAddress := fun s ra hwf hsp =>
  ⟨_, returnByte s, exec_call_next ra hsp, memoryOnlyAt_pushed hwf (returnByte s), returnByte_toNat s,
    jumpTo_pc_toNat _, sp_sub_one_toNat hsp, rfl, rfl, rfl, rfl⟩

/-- Settles O41: RET is the jump to the byte at SP, in the state whose SP has gone up. -/
theorem retPopsIntoPc : Obligations.RetPopsIntoPc := fun _ hsp =>
  ⟨_, exec_ret_next hsp, jumpTo_pc_toNat _, sp_add_one_toNat hsp, fun _ => rfl, rfl, rfl, rfl, rfl⟩

/-- Settles O43: the POP of O39 reads at the address the PUSH of O38 wrote, and so copies the byte back. -/
theorem pushThenPopRestores : Obligations.PushThenPopRestores := by
  intro s ra hwf hsp
  obtain ⟨t, ht, hpushed, hdown, -⟩ := pushWritesBelowSp s ra hwf hsp
  obtain ⟨htsp, htop⟩ := sp_of_toNat_add_one hdown
  have htwf : t.mem.wf = true := Effect.mem_wf (ht ▸ exec_effect (.push ra) s) hwf
  obtain ⟨u, hu, hpopped, hup, -⟩ := popReadsAtSp t ra htwf htop
  rw [htsp] at hpopped
  obtain ⟨hslot, hmem⟩ := hpushed.copy_back hpopped
  exact ⟨t, u, ht, hu, hslot, BitVec.eq_of_toNat_eq (hup.trans hdown), hmem⟩

/-- Settles O44: the RET of O41 reads at the address where the CALL of O40 left PC + 2, which fits a byte. -/
theorem callThenRetReturns : Obligations.CallThenRetReturns := by
  intro s ra hwf hsp hpc
  obtain ⟨t, v, ht, ⟨hv, -⟩, hret, -, hdown, -⟩ := callPushesTheReturnAddress s ra hwf hsp
  obtain ⟨htsp, htop⟩ := sp_of_toNat_add_one hdown
  obtain ⟨u, hu, hupc, hup, -⟩ := retPopsIntoPc t htop
  refine ⟨t, u, ht, hu, ?_, BitVec.eq_of_toNat_eq (hup.trans hdown)⟩
  calc u.pc.toNat
    _ = v.toNat := by rw [hupc, htsp, hv]
    _ = s.pc.toNat + 2 := by rw [hret, Nat.mod_eq_of_lt (by omega)]

/-! The statements about the jumps. -/

/-- Settles O45: JMP is the jump to slot A's byte, which is no change at all where PC holds that address. -/
theorem jmpGoesToTheSlotsAddress : Obligations.JmpGoesToTheSlotsAddress := fun s _ =>
  ⟨rfl, _, exec_jmp_next _, jumpTo_pc_toNat _, jumpTo_eq_self, onlyPc_setPc _ s⟩

/-- Settles O46: each conditional jump is one test of its own flag. -/
theorem conditionalJumpsTestTheirFlag : Obligations.ConditionalJumpsTestTheirFlag := fun s ra =>
  ⟨jumpIf_sets_pc_alone (op := Opcode.jeq) rfl (flagSet_iff s.fl flE) ra s,
    jumpIf_sets_pc_alone (op := Opcode.jne) rfl (not_flagSet_iff s.fl flE) ra s,
    jumpIf_sets_pc_alone (op := Opcode.jlt) rfl (flagSet_iff s.fl flL) ra s,
    jumpIf_sets_pc_alone (op := Opcode.jgt) rfl (flagSet_iff s.fl flG) ra s⟩

end Sys2Proof.Machine
end

section
/-! SUPPORT. A partial opcode is refused whatever its operand byte, and its fetch never fails for want of that byte
(spec 44_partial_ops.md rules R140 to R143). -/

namespace Sys2Proof.Machine

variable {s : State} {i : Instr}

/-- A partial opcode is the opcode byte of an instruction of the table: it is not unknown (R55, R140). -/
theorem formOf_ne_none_of_isPartial {op : Byte} (hp : isPartial op = true) : formOf op ≠ none :=
  (formOf_ne_none_iff op).mpr (.inr ((isPartial_iff op).mp hp))

/-- A partial opcode is not a fully defined one (R55). -/
theorem opClass_ne_defined_of_isPartial {op : Byte} (hp : isPartial op = true) : opClass op ≠ .defined := fun hdef =>
  ((opClass_eq_defined_iff op).mp hdef).2 hp

/-- The fetch of a partial opcode never faults on its operand, so it succeeds at every address of memory, the last one
included (R79, R140). -/
theorem fetch_partial (hpc : s.pc.toNat ≤ 255) (hp : isPartial (s.byte s.pc.toNat) = true) :
    ∃ i, fetch s = .ok (.instr i) ∧ i.opcode = s.byte s.pc.toNat := by
  obtain ⟨i, hf, -, hop, -⟩ | ⟨-, -, hform⟩ | ⟨-, hbeyond⟩ | ⟨-, he, hdef, -⟩ | ⟨-, he, hdef, -⟩ := fetch_cases s
  · exact ⟨i, hf, hop⟩
  · exact absurd hform (formOf_ne_none_of_isPartial hp)
  · omega
  · exact absurd hdef (opClass_ne_defined_of_isPartial (he ▸ hp))
  · exact absurd hdef (opClass_ne_defined_of_isPartial (he ▸ hp))

/-- Of the effects an instruction can have, only the refusal is left to a partial opcode (R140). -/
theorem exec_partial (hp : isPartial i.opcode = true) :
    exec i s = .refused (.partialOpcode i.opcode (s.setStatus (.refused i.opcode))) := by
  have he := exec_effect i s
  cases ho : exec i s with
  | next t => exact absurd ho (exec_partial_not_next hp)
  | fault e => rw [ho] at he; cases he
  | refused r => rw [ho] at he; cases he; rfl

/-! The statement about the partial opcodes. -/

/-- Settles O49: the fetch brings an instruction with the partial opcode at PC, and its meaning is the refusal. -/
theorem partialOpcodesAreRefused : Obligations.PartialOpcodesAreRefused := by
  refine ⟨fun _ a => ⟨exec_partial (i := .int a) rfl, exec_partial (i := .iret) rfl, exec_partial (i := .pra a) rfl⟩,
    ?step⟩
  case step =>
    rintro s op hrun hpc rfl hmem
    have hp := (isPartial_iff (s.byte s.pc.toNat)).mpr hmem
    obtain ⟨i, hf, hop⟩ := fetch_partial hpc hp
    rw [step_of_fetch_instr hrun hf, exec_partial (hop ▸ hp), hop]

end Sys2Proof.Machine
end

section
/-! SUPPORT. A step faults with a cause exactly where the table's condition for that cause holds, and a step that faults
is the raise of that cause and nothing more (spec 60_exceptions.md rules R150 to R156). -/

namespace Sys2Proof.Machine

variable {s t : State} {i : Instr} {c : Cause}

/-! From the faulted latch to the raise and its condition. -/

/-- An instruction that sets the run latch to a fatal condition has raised it, on the table's condition (R151, R152). -/
theorem Effect.raise_and_condition_of_faulted (h : Effect s i (.next t)) (hd : Decoded s i)
    (hrun : s.status = .running) (hfault : t.status = .faulted c) : t = raise c s ∧ FaultCondition s c := by
  have hkept : s.status ≠ .faulted c := by simp [hrun]
  cases h with
  | divideByZero _ ra rb hi hzero =>
    cases hfault
    obtain rfl | rfl := hi
    · exact ⟨rfl, rfl, ra, rb, .inl hd, hzero⟩
    · exact ⟨rfl, rfl, ra, rb, .inr hd, hzero⟩
  | stackBottom _ ra hi hsp =>
    cases hfault
    obtain rfl | rfl := hi
    · exact ⟨rfl, .inl ⟨rfl, hsp, ra, .inl hd⟩⟩
    · exact ⟨rfl, .inl ⟨rfl, hsp, ra, .inr hd⟩⟩
  | stackTop _ ra hi hsp =>
    cases hfault
    obtain rfl | rfl := hi
    · exact ⟨rfl, .inr ⟨rfl, hsp, .inr ⟨ra, hd⟩⟩⟩
    · exact ⟨rfl, .inr ⟨rfl, hsp, .inl hd⟩⟩
  | hlt => cases hfault
  | call ra u _ hu => subst hu; exact absurd hfault hkept
  | _ => exact absurd hfault hkept

/-- A step that sets the run latch to a fatal condition has raised it, on the table's condition (R151, R152). -/
theorem raise_and_condition_of_step_faulted (h : step s = .next t) (hfault : t.status = .faulted c) :
    t = raise c s ∧ FaultCondition s c := by
  obtain ⟨hrun, ⟨i, hd, -, -, -, he⟩ | ⟨-, -, rfl⟩ | ⟨c', -, rfl, hcond, -⟩⟩ := step_cases h
  · exact he.raise_and_condition_of_faulted hd hrun hfault
  · simp [hrun] at hfault
  · cases hfault
    exact ⟨rfl, hcond⟩

/-! From the condition to the raise. -/

theorem step_of_decoded (hrun : s.status = .running) (hd : Decoded s i) : step s = exec i s :=
  step_of_fetch_instr hrun (fetch_of_decoded hd)

/-- On the table's condition for a cause a running engine raises that cause (R151, R154 to R156). -/
theorem step_of_faultCondition (hrun : s.status = .running) (h : FaultCondition s c) : step s = .next (raise c s) := by
  obtain ⟨hopcode, hoperandA, hoperandB⟩ := fetchBeyondMemoryFaults s hrun
  match c, h with
  | .divideByZero _, ⟨rfl, ra, rb, hd, hzero⟩ =>
    obtain hd | hd := hd
    · rw [step_of_decoded hrun hd, exec_div_zero s ra rb hzero]
    · rw [step_of_decoded hrun hd, exec_mod_zero s ra rb hzero]
  | .memRange _ .opcodeFetch, ⟨rfl, hpc⟩ => exact hopcode hpc
  | .memRange _ .operandA, ⟨rfl, hpc, hdef, hlen⟩ => exact hoperandA hpc hdef hlen
  | .memRange _ .operandB, ⟨rfl, hpc, hdef, hlen⟩ => exact hoperandB hpc hdef hlen
  | .stackRange _, .inl ⟨rfl, hsp, ra, hd⟩ =>
    obtain hd | hd := hd
    · rw [step_of_decoded hrun hd, exec_push_empty ra hsp]
    · rw [step_of_decoded hrun hd, exec_call_empty ra hsp]
  | .stackRange _, .inr ⟨rfl, hsp, hd⟩ =>
    obtain hd | ⟨ra, hd⟩ := hd
    · rw [step_of_decoded hrun hd, exec_ret_full hsp]
    · rw [step_of_decoded hrun hd, exec_pop_full ra hsp]

/-! The `fault` output. -/

/-- The `fault` output is not asserted in any status but `faulted` (R27). -/
theorem faultOut_eq_none (h : ∀ c, s.status ≠ .faulted c) : faultOut s = none := by
  cases hs : s.status with
  | faulted c => exact absurd hs (h c)
  | _ => simp only [faultOut, hs]

/-! The statements about the fatal conditions. -/

/-- Settles O8: a faulted latch comes from a raise on the table's condition, and on that condition the step raises. -/
theorem faultsExactlyOnTheTabledConditions : Obligations.FaultsExactlyOnTheTabledConditions := fun _ _ hrun =>
  ⟨fun ⟨_, h, hfault⟩ => (raise_and_condition_of_step_faulted h hfault).2,
    fun hcond => ⟨_, step_of_faultCondition hrun hcond, rfl⟩⟩

/-- Settles O9: a step that faults is the raise of its cause, which sets the run latch alone; a faulted engine takes no
step (O4) and asserts its output. -/
theorem faultsArePreciseAndFinal : Obligations.FaultsArePreciseAndFinal := by
  refine ⟨fun s t c h hfault => ?faults, fun _ => faultOut_eq_none⟩
  case faults =>
    obtain ⟨hraise, -⟩ := raise_and_condition_of_step_faulted h hfault
    obtain ⟨-, hfinal, -⟩ := noStepUnlessRunning t
    refine ⟨hraise, hfinal c hfault, ?_⟩
    rw [faultOut_faulted hfault]
    cases c <;> rfl

end Sys2Proof.Machine
end

section
/-! SUPPORT. What the driver does with one request, what a load leaves, and that every move of a run keeps the invariant:
the power-on, the load and the step (spec 70_reset_and_hazards.md rules R180 to R189). -/

namespace Sys2Proof.Machine

variable {s t u : State} {i : Instr} {c : Cause} {k : Nat} {bytes : List Byte}

/-! The driver. -/

/-- A running engine always has a step: none of the three stops of `Fault` is its answer (R70). -/
theorem step_ne_fault (hrun : s.status = .running) (f : Fault) : step s ≠ .fault f := by
  intro h
  cases hf : fetch s with
  | error c =>
    rw [step_of_fetch_error hrun hf] at h
    cases h
  | ok fetched =>
    cases fetched with
    | unknown op =>
      rw [step_of_fetch_unknown hrun hf] at h
      cases h
    | instr i =>
      have he := exec_effect i s
      rw [← step_of_fetch_instr hrun hf, h] at he
      cases he

/-- What a driver with a request left does: it stops asking an engine that does not run, goes on from the state a step
answers, or hands on the refusal of INT, IRET or PRA (R186). -/
theorem drive_succ_cases (k : Nat) (s : State) :
    (s.status ≠ .running ∧ drive (k + 1) s = .next s) ∨
    (∃ t, step s = .next t ∧ drive (k + 1) s = drive k t) ∨
    (∃ r, step s = .refused r ∧ drive (k + 1) s = .refused r) := by
  cases hs : s.status with
  | running =>
    cases h : step s with
    | next t => exact .inr (.inl ⟨t, rfl, by simp only [drive, hs, h]⟩)
    | fault f => exact absurd h (step_ne_fault hs f)
    | refused r => exact .inr (.inr ⟨r, rfl, by simp only [drive, hs, h]⟩)
  | _ => exact .inl ⟨nofun, by simp only [drive, hs]⟩

/-- What every step keeps holds of every state that a run reaches from a state where it holds (R189). -/
theorem drive_keeps {P : State → Prop} (hkeep : ∀ s t, P s → step s = .next t → P t) (hs : P s)
    (h : drive k s = .next u) : P u := by
  induction k generalizing s with
  | zero => cases h; exact hs
  | succ k ih =>
    obtain ⟨-, hd⟩ | ⟨t, hst, hd⟩ | ⟨r, -, hd⟩ := drive_succ_cases k s <;> rw [hd] at h
    · cases h; exact hs
    · exact ih (hkeep s t hs hst) h
    · cases h

/-! The latch after a step. -/

/-- The decoder reads an instruction only at an address of memory, and the byte there is its opcode. -/
theorem Decoded.pc_le_and_opcode (h : Decoded s i) : s.pc.toNat ≤ 255 ∧ i.opcode = s.byte s.pc.toNat := by
  have hf := fetch_of_decoded h
  obtain ⟨j, hj, hpc, hop, -⟩ | ⟨hj, -⟩ | ⟨hj, -⟩ | ⟨hj, -⟩ | ⟨hj, -⟩ := fetch_cases s <;> rw [hj] at hf <;> cases hf
  exact ⟨hpc, hop⟩

/-- A defined instruction of three bytes lies whole in memory, so it starts at 253 at the latest (R71, R155). -/
theorem Decoded.pc_le_of_three_bytes (h : Decoded s i) (hdef : opClass i.opcode = .defined)
    (hlen : instrLen i.opcode = 3) : s.pc.toNat ≤ 253 := by
  obtain ⟨hpc, hop⟩ := h.pc_le_and_opcode
  have hf := fetch_of_decoded h
  rw [instrLen] at hlen
  rw [hop] at hdef hlen
  by_contra hbeyond
  obtain hpc | hpc : s.pc.toNat = 254 ∨ s.pc.toNat = 255 := by omega
  · rw [hpc] at hdef hlen
    rw [fetch_noOperandB hpc hdef (by omega)] at hf
    cases hf
  · rw [hpc] at hdef hlen
    rw [fetch_noOperandA hpc hdef (by omega)] at hf
    cases hf

theorem statusTrue_of_running (h : s.status = .running) : StatusTrue s := by
  simp only [StatusTrue, h]

theorem statusTrue_of_halted (h : s.status = .halted) (hpc : 1 ≤ s.pc.toNat ∧ s.pc.toNat ≤ 256) : StatusTrue s := by
  simpa only [StatusTrue, h] using hpc

/-- The record of a fatal condition raised where the table has it agrees with the registers it leaves (R151). -/
theorem statusTrue_raise (h : FaultCondition s c) : StatusTrue (raise c s) := by
  match c, h with
  | .divideByZero _, ⟨hp, _, _, .inl hd, _⟩ =>
    exact ⟨hp, hd.pc_le_of_three_bytes rfl (show instrLen Opcode.div = 3 from rfl)⟩
  | .divideByZero _, ⟨hp, _, _, .inr hd, _⟩ =>
    exact ⟨hp, hd.pc_le_of_three_bytes rfl (show instrLen Opcode.mod = 3 from rfl)⟩
  | .memRange _ .opcodeFetch, h => exact h
  | .memRange _ .operandA, ⟨ha, hpc, _⟩ => exact ⟨ha, hpc⟩
  | .memRange _ .operandB, ⟨ha, hpc, _⟩ => exact ⟨ha, hpc⟩
  | .stackRange _, .inl ⟨hv, hsp, _⟩ => exact .inl ⟨hv, hsp⟩
  | .stackRange _, .inr ⟨hv, hsp, _⟩ => exact .inr ⟨hv, hsp⟩

/-- A step that answers a next state leaves the engine running, or halted, or faulted; never refused (R19). -/
theorem step_status (h : step s = .next t) :
    t.status = .running ∨ t.status = .halted ∨ ∃ c, t.status = .faulted c := by
  obtain ⟨hrun, ⟨i, -, -, -, -, he⟩ | ⟨-, -, rfl⟩ | ⟨c, -, rfl, -, -⟩⟩ := step_cases h
  · obtain hkept | ⟨-, hhalt⟩ | hfault := he.status_eq_or_hlt_or_faulted
    · exact .inl (hkept.trans hrun)
    · exact .inr (.inl hhalt)
    · exact .inr (.inr hfault)
  · exact .inl hrun
  · exact .inr (.inr ⟨c, rfl⟩)

/-- A halt leaves PC just past the HLT, which lies in memory (R77). -/
theorem pc_of_step_halted (h : step s = .next t) (hhalt : t.status = .halted) : 1 ≤ t.pc.toNat ∧ t.pc.toNat ≤ 256 := by
  have hd := onlyHltHalts s t h hhalt
  have hpc := hd.pc_le_and_opcode.1
  rw [step_of_decoded (step_next_running h) hd, exec_hlt_next] at h
  cases h
  rw [advance_pc_toNat (s := s.setStatus .halted) _ hpc, State.setStatus_pc, show instrLen Opcode.hlt = 1 from rfl]
  omega

theorem statusTrue_of_step (h : step s = .next t) : StatusTrue t := by
  obtain hrun | hhalt | ⟨c, hfault⟩ := step_status h
  · exact statusTrue_of_running hrun
  · exact statusTrue_of_halted hhalt (pc_of_step_halted h hhalt)
  · obtain ⟨rfl, hcond⟩ := raise_and_condition_of_step_faulted h hfault
    exact statusTrue_raise hcond

/-! The other parts of the invariant after a step. -/

theorem mem_wf_of_step (h : step s = .next t) (hwf : s.mem.wf = true) : t.mem.wf = true := by
  obtain ⟨-, ⟨i, -, -, -, -, he⟩ | ⟨-, -, rfl⟩ | ⟨c, -, rfl, -, -⟩⟩ := step_cases h
  · exact he.mem_wf hwf
  · exact hwf
  · exact hwf

/-- The address an instruction sets PC to is a byte (R74). -/
theorem pcTarget_lt (i : Instr) (s t : State) : pcTarget i s t < 256 := by
  cases i with
  | ret | call | jmp | jeq | jne | jlt | jgt => exact BitVec.isLt _
  | _ => exact Nat.zero_lt_succ _

theorem advance_pc_le (op : Byte) (h : s.pc.toNat ≤ 255) : (advance op s).pc.toNat ≤ 259 := by
  rw [advance_pc_toNat op h]
  exact Nat.add_le_add h (instrLen_bounds op).2

/-- A step leaves PC at a byte's value, or at most four past an address of memory, or where it was (R16). -/
theorem pc_le_of_step (h : step s = .next t) (hpc : s.pc.toNat ≤ 259) : t.pc.toNat ≤ 259 := by
  obtain ⟨-, ⟨i, -, hpc', -, -, he⟩ | ⟨hpc', -, rfl⟩ | ⟨c, -, rfl, -, -⟩⟩ := step_cases h
  · obtain ⟨-, htarget⟩ | ⟨-, hadv⟩ | ⟨c, hfault⟩ := he.pc_set_or_advanced_or_faulted
    · have := pcTarget_lt i s t
      omega
    · exact hadv ▸ advance_pc_le i.opcode hpc'
    · obtain ⟨rfl, -⟩ := raise_and_condition_of_step_faulted h hfault
      exact hpc
  · exact advance_pc_le (s := s.log _) _ hpc'
  · exact hpc

theorem flLegal_of_step (h : step s = .next t) (hfl : flLegal s.fl = true) : flLegal t.fl = true := by
  by_cases hkept : t.fl = s.fl
  · rwa [hkept]
  · obtain ⟨ra, rb, -, hcmp⟩ := onlyCmpChangesFlags s t h hkept
    rw [hcmp]
    split_ifs <;> rfl

theorem diag_truthful_of_step (h : step s = .next t) (hdiag : s.diag.all DiagEvent.truthful = true) :
    t.diag.all DiagEvent.truthful = true := by
  obtain ⟨-, hkept | ⟨hpc, hunknown, happended⟩⟩ := streamsAreAppendOnly s t h
  · rwa [hkept]
  · have hevent : DiagEvent.truthful (.unknownOpcode s.pc (s.byte s.pc.toNat)) = true := by
      simp [DiagEvent.truthful, hpc, hunknown]
    simp [happended, hdiag, hevent]

/-! Every move of a run keeps the invariant. -/

/-- Each part of the invariant is kept, the latch is true after any step (R16, R18, R30, R151). -/
theorem inv_step (hinv : Inv s) (h : step s = .next t) : Inv t where
  memory := mem_wf_of_step h hinv.memory
  pcRange := pc_le_of_step h hinv.pcRange
  flags := flLegal_of_step h hinv.flags
  latch := statusTrue_of_step h
  events := diag_truthful_of_step h hinv.events

/-- What power-on sets is legal whatever the machine held, and memory it leaves alone (R180). -/
theorem inv_powerOn (hwf : s.mem.wf = true) : Inv (powerOn s) where
  memory := hwf
  pcRange := Nat.zero_le _
  flags := rfl
  latch := statusTrue_of_running rfl
  events := rfl

/-- A load replaces memory alone, by a memory in canonical form again (R184). -/
theorem inv_loadProgram (hinv : Inv s) (h : loadProgram bytes s = .ok t) : Inv t := by
  obtain ⟨hlen, rfl⟩ := loadProgram_eq_ok h
  obtain ⟨hmem, hpc, hfl, hlatch, hdiag⟩ := hinv
  exact ⟨Memory.wf_setAll hmem ((Nat.zero_add _).trans_le hlen), hpc, hfl, hlatch, hdiag⟩

/-- Whether a load succeeds depends on the program's length alone, and power-on and the load write different fields, so
they may be done in either order (R180, R184). -/
theorem loadProgram_powerOn (bytes : List Byte) (s : State) :
    loadProgram bytes (powerOn s) = (loadProgram bytes s).map powerOn := by
  rcases Nat.lt_or_ge 256 bytes.length with hlong | hfits
  · rw [loadProgram_tooLong _ hlong, loadProgram_tooLong _ hlong]
    rfl
  · rw [loadProgram_ok _ hfits, loadProgram_ok _ hfits]
    rfl

/-! The statements about reset, the load and the run. -/

/-- Settles O15: by induction on the requests; the driver asks a running engine only, and that has a step. -/
theorem driverIsNeverWithoutAStep : Obligations.DriverIsNeverWithoutAStep := by
  intro k s f
  induction k generalizing s with
  | zero => exact nofun
  | succ k ih =>
    obtain ⟨-, hd⟩ | ⟨t, -, hd⟩ | ⟨r, -, hd⟩ := drive_succ_cases k s <;> rw [hd]
    · exact nofun
    · exact ih t
    · exact nofun

/-- Settles O16: a load that fits is one write of a run of bytes from address 0 on, and a longer one fails. -/
theorem loaderPlacesByteAtItsAddress : Obligations.LoaderPlacesByteAtItsAddress := by
  refine fun bytes s => ⟨fun hlen hwf => ?_, loadProgram_tooLong s⟩
  have hfits : 0 + bytes.length ≤ Config.memSize := (Nat.zero_add _).trans_le hlen
  refine ⟨_, loadProgram_ok s hlen, fun k hk => ?placed, fun a ha => ?kept, Memory.wf_setAll hwf hfits,
    rfl, rfl, rfl, rfl, rfl, rfl⟩
  case placed =>
    have h := Memory.get_setAll_at hwf hfits hk
    rwa [Nat.zero_add] at h
  case kept => exact Memory.get_setAll_other s.mem (.inr ((Nat.zero_add _).trans_le ha))

/-- Settles O50: power-on sets legal values, and the load and the power-on write different fields. -/
theorem loadAndPowerOnMeetInv : Obligations.LoadAndPowerOnMeetInv :=
  ⟨fun _ => inv_powerOn, fun _ _ _ => inv_loadProgram, loadProgram_powerOn⟩

/-- Settles O51: the invariant holds from power-on, and the load and every step of the driver keep it. -/
theorem everyStateOfARunMeetsInv : Obligations.EveryStateOfARunMeetsInv := fun _ _ _ _ _ hwf hload hdrive =>
  drive_keeps (fun _ _ => inv_step) (inv_loadProgram (inv_powerOn hwf) hload) hdrive

end Sys2Proof.Machine
end

section
/-! SUPPORT. The opcode table read as a table of encodings, and that a list of bytes decodes only to the instruction it
is the encoding of (spec 30_encoding.md rules R50, R55, R56). -/

namespace Sys2Proof

/-- The instructions a row of the table makes are encoded as the opcode byte and the operand bytes, A first (R50). -/
def Form.EncodesAs (op : Byte) : Form → Prop
  | .op0 i => encode i = [op]
  | .op1 mk => ∀ a, encode (mk a) = [op, a]
  | .op2 mk => ∀ a b, encode (mk a b) = [op, a, b]

/-- The decoder's table and the encoder's agree, row by row (R56). -/
theorem encodesAs_of_formOf {op : Byte} {f : Form} (h : formOf op = some f) : f.EncodesAs op := by
  have hop : op = BitVec.ofNat 8 op.toNat := by simp
  unfold formOf at h
  split at h
  -- the last arm of the table: an unknown opcode encodes nothing
  case h_31 => cases h
  all_goals
    next hvalue =>
      cases h
      rw [hop, hvalue]
      simp only [Form.EncodesAs]
      intros
      rfl

/-- What the decoder accepts is the encoding of the instruction it reads, then the bytes it leaves (R50): by the format
of the opcode byte and the operand bytes at hand. -/
theorem eq_encode_append_of_decode {bytes rest : List Byte} {i : Instr} (h : decode bytes = .ok (i, rest)) :
    bytes = encode i ++ rest := by
  cases bytes with
  | nil => cases h
  | cons op following =>
    cases hf : formOf op with
    | none => simp [decode, hf] at h
    | some f =>
      have henc := encodesAs_of_formOf hf
      match f, following with
      | .op1 _, [] | .op2 _, [] | .op2 _, [_] => simp [decode, hf] at h
      | .op0 _, _ =>
        simp only [decode, hf] at h
        cases h
        exact congrArg (· ++ rest) henc.symm
      | .op1 _, a :: _ =>
        simp only [decode, hf] at h
        cases h
        exact congrArg (· ++ rest) (henc a).symm
      | .op2 _, a :: b :: _ =>
        simp only [decode, hf] at h
        cases h
        exact congrArg (· ++ rest) (henc a b).symm

end Sys2Proof

namespace Sys2Proof.Machine

/-! The statements about the step's invariant, the round trip of the encoding, and reset. -/

/-- Settles O3: each part of the invariant has its own lemma about a step. -/
theorem stepKeepsInv : Obligations.StepKeepsInv := fun _ _ => inv_step

/-- Settles O17: the encoder is read back row by row, and the decoder's table holds the encoder's opcode bytes. -/
theorem decodeAndEncodeAgree : Obligations.DecodeAndEncodeAgree :=
  ⟨decode_encode, fun _ _ _ => eq_encode_append_of_decode⟩

/-- Settles O1: the fields of the reset state are the named values, and power-on keeps the memory list. -/
theorem resetLeavesTheStatedValues : Obligations.ResetLeavesTheStatedValues :=
  ⟨⟨rfl, rfl, rfl, rfl, rfl, rfl, rfl⟩, fun s =>
    ⟨powerOn_sp s, powerOn_pc s, powerOn_fl s, powerOn_status s, powerOn_out s, powerOn_diag s,
      State.byte_congr (powerOn_mem s)⟩⟩

/-- Settles O2: the reset state is what power-on makes of itself, and its empty memory is in canonical form. -/
theorem resetMeetsInv : Obligations.ResetMeetsInv := inv_powerOn (s := State.reset) Memory.wf_nil

end Sys2Proof.Machine
end
